-- ==== Sys2Proof/Word.lean ====
section
/-! DEFINITION. The block's values: bytes, byte sequences and the Packet record (spec/00_scope.md section 6.1,
6.2; spec/10_state.md R22). -/

namespace Sys2Proof

/-- A byte: an unsigned 8-bit value, bit 7 the most significant (00_scope section 6.1). -/
abbrev Byte := BitVec 8

/-- A byte sequence: a finite ordered list of bytes, possibly empty (00_scope section 6.2). -/
abbrev Bytes := List Byte

/-- The Packet record (10_state R22): an immutable value of three stored fields. The ranges of the lengths are
`Packet.wf` in WellFormed.lean; the derived fields are computed on access (Machine/Fields.lean). -/
structure Packet where
  /-- `packet_type`, 0 to 255; 0x01 is an ERP1 telegram. -/
  packetType : Byte
  /-- `data`, length 0 to 65535. -/
  data : Bytes
  /-- `opt`, length 0 to 255. -/
  opt : Bytes
deriving DecidableEq, Repr

end Sys2Proof
end

