-- ==== Sys2Proof/Config.lean ====
section
/-! DEFINITION. The constants and the open parameters of the block (spec/00_scope.md R5). The spec leaves no
value undefined (spec/93_implementation_defined.md, end of section 1), so there is no free value here. -/

namespace Sys2Proof

/-- The three rows of 00_scope R5 that the source leaves OPEN; `none` is "unbounded", the default.
They are arguments (`execWith`, `stepWith`, `coreWith`) and never a field of the state (10_state R31); the machine itself
is the one at their defaults (log 9). -/
structure Config where
  /-- `BUF_CAP`: capacity of the parser buffer in bytes (92_eei_decisions D6); read by FEED. -/
  bufCap : Option Nat
  /-- `CHUNK_MAX`: largest chunk one FEED takes (D16); a premise on the host, read in Safety.lean (log 10). -/
  chunkMax : Option Nat
  /-- `PKTS_MAX`: largest number of packets one DRAIN returns (D17); read in Safety.lean (log 10). -/
  pktsMax : Option Nat
deriving DecidableEq, Repr

/-- The defaults of 00_scope R5: everything unbounded. -/
def Config.default : Config := { bufCap := none, chunkMax := none, pktsMax := none }

/-- `SYNC`: the first byte of every frame. -/
abbrev Config.sync : Byte := 0x55#8

/-- `POLY`: the CRC-8 polynomial with its x^8 term implicit. -/
abbrev Config.poly : Byte := 0x07#8

/-- `CRC_INIT`: the initial accumulator. There is no final XOR (`CRC_XOROUT` = 0). -/
abbrev Config.crcInit : Byte := 0x00#8

/-- `DATA_MAX`: largest `len(data)`. -/
abbrev Config.dataMax : Nat := 65535

/-- `OPT_MAX`: largest `len(opt)`. -/
abbrev Config.optMax : Nat := 255

/-- `PREFIX_LEN`: sync, the `HDR_BYTES` = 4 header bytes, and the header checksum. -/
abbrev Config.prefixLen : Nat := 6

/-- `FRAME_MIN`: the shortest frame. -/
abbrev Config.frameMin : Nat := 7

/-- `FRAME_MAX`: the longest frame. -/
abbrev Config.frameMax : Nat := 65797

/-- `PT_ERP1`: the one packet type with derived fields. -/
abbrev Config.ptErp1 : Byte := 0x01#8

end Sys2Proof
end

