-- ==== Sys2Proof/Syntax.lean ====
section
/-! DEFINITION. The operations of the block: one constructor per row of spec/opcode_table.json (spec/00_scope.md
R9, spec/30_encoding.md R73, R74). -/

namespace Sys2Proof

/-- One operation with its operands, passed by value in the formats of 30_encoding R73. -/
inductive Instr where
  /-- `CRC8 s`: the checksum of a byte sequence (40_crc8 R91). -/
  | crc8 (bs : Bytes)
  /-- `ENCODE pt, data, opt`: build a frame (41_frame_encode R100). -/
  | encode (pt : Byte) (data opt : Bytes)
  /-- `DECODE1 b`: decode one frame from the front of a byte sequence (42_frame_decode R110). -/
  | decode1 (bs : Bytes)
  /-- `FEED c`: append a chunk to the parser buffer (43_stream_parser R125). -/
  | feed (chunk : Bytes)
  /-- `DRAIN`: extract every complete packet (43_stream_parser R127). -/
  | drain
  /-- `RESET`: make the parser fresh (43_stream_parser R140). -/
  | reset
  /-- `RORG p` (44_packet_fields R150). -/
  | rorg (p : Packet)
  /-- `SENDERID p` (44_packet_fields R151). -/
  | senderid (p : Packet)
  /-- `STATUS p` (44_packet_fields R152). -/
  | status (p : Packet)
  /-- `ESP3_FRAME_PREFIX`: the fixed 48-bit prefix of a frame with its fields L, O, T, H (30_encoding R60, section
  6), put before the frame recogniser. DESIGN CHOICE (log 6): the row is a pattern, not one of R9's operations. -/
  | esp3FramePrefix (dl : BitVec 16) (ol pt hc : Byte)
deriving DecidableEq, Repr

end Sys2Proof
end

