-- ==== Sys2Proof/WellFormed.lean ====
section
/-! DEFINITION. Which operations can be presented to the block: the ranges of a Packet (spec/10_state.md R22). -/

namespace Sys2Proof

/-- A Packet's lengths are in the ranges of 10_state R22. -/
def Packet.wf (p : Packet) : Bool :=
  decide (p.data.length ≤ Config.dataMax) && decide (p.opt.length ≤ Config.optMax)

/-- An operation is well-formed when its Packet operand, if it has one, is a Packet. Byte-sequence operands may
have any length (30_encoding R73; for ENCODE see 92_eei_decisions D17: over-long operands can be presented). -/
def Instr.wellFormed : Instr → Bool
  | .crc8 _ => true
  | .encode _ _ _ => true
  | .decode1 _ => true
  | .feed _ => true
  | .drain => true
  | .reset => true
  | .rorg p => p.wf
  | .senderid p => p.wf
  | .status p => p.wf
  | .esp3FramePrefix _ _ _ _ => true

end Sys2Proof
end

