-- ==== Sys2Proof/Decode.lean ====
section
/-! DEFINITION. Requests as bytes: the select codes of spec/30_encoding.md R74, the 48-bit prefix row of R60, and
the model's link format for operands (DESIGN CHOICE, log 1: 30_encoding R73 leaves open how a length and the bytes
travel). A request is the select byte, its code in bits 3:0 and zeros above, then the operands in the order of R73.
A byte sequence travels as `01 b` for each byte and then `00`, a Packet as its type, its data and its opt. A request
that begins with the sync byte is the prefix row: six bytes, no select byte. -/

namespace Sys2Proof

/-- Why a request names no operation. -/
inductive DecodeError where
  /-- An unused operation select code (30_encoding R75). -/
  | illegalOp
  /-- The bytes do not follow the link format (log 12). -/
  | malformed
  /-- A Packet operand outside the ranges of 10_state R22 (log 11). -/
  | notAPacket
deriving DecidableEq, Repr

/-- The nine operations that have a select code (30_encoding R74). -/
inductive Op where
  | crc8 | encode | decode1 | feed | drain | reset | rorg | senderid | status
deriving DecidableEq, Repr

/-- The table of 30_encoding R74. -/
def opTable : List (BitVec 4 × Op) :=
  [(0x1#4, .crc8), (0x2#4, .encode), (0x3#4, .decode1), (0x4#4, .feed), (0x5#4, .drain), (0x6#4, .reset),
   (0x8#4, .rorg), (0x9#4, .senderid), (0xA#4, .status)]

/-- The operation a code selects, if any (30_encoding R74, R75). -/
def opOfCode (code : BitVec 4) : Option Op := (opTable.find? fun row => row.1 == code).map Prod.snd

/-- The code of an operation (30_encoding R74). -/
def Op.code : Op → BitVec 4
  | .crc8 => 0x1#4
  | .encode => 0x2#4
  | .decode1 => 0x3#4
  | .feed => 0x4#4
  | .drain => 0x5#4
  | .reset => 0x6#4
  | .rorg => 0x8#4
  | .senderid => 0x9#4
  | .status => 0xA#4

/-- The select byte: the code in bits 3:0, zeros in bits 7:4. -/
def Op.selectByte (op : Op) : Byte := op.code.setWidth 8

/-- A byte sequence in the link format. -/
def putSeq : Bytes → Bytes
  | [] => [0x00#8]
  | b :: bs => 0x01#8 :: b :: putSeq bs

/-- Reads one byte sequence in the link format; answers it with what follows. -/
def takeSeq : Bytes → Option (Bytes × Bytes)
  | [] => none
  | [m] => if m = 0x00#8 then some ([], []) else none
  | m :: b :: rest =>
    if m = 0x00#8 then some ([], b :: rest)
    else if m = 0x01#8 then (takeSeq rest).map fun r => (b :: r.1, r.2)
    else none

/-- A Packet in the link format. -/
def putPacket (p : Packet) : Bytes := p.packetType :: (putSeq p.data ++ putSeq p.opt)

/-- Reads a packet type, a data sequence and an opt sequence that fill the bytes exactly. -/
def takeTriplet : Bytes → Option (Byte × Bytes × Bytes)
  | [] => none
  | pt :: rest =>
    match takeSeq rest with
    | none => none
    | some (data, rest') =>
      match takeSeq rest' with
      | some (opt, []) => some (pt, data, opt)
      | _ => none

/-- Reads one byte sequence that fills the bytes exactly (format `S`). -/
def takeWholeSeq (bs : Bytes) : Option Bytes :=
  match takeSeq bs with
  | some (s, []) => some s
  | _ => none

/-- Format `S` of 30_encoding R73: one byte sequence. -/
def decodeS (mk : Bytes → Instr) (operands : Bytes) : Except DecodeError Instr :=
  match takeWholeSeq operands with
  | some s => .ok (mk s)
  | none => .error .malformed

/-- Format `TSS` of 30_encoding R73: a byte and two byte sequences. -/
def decodeTSS (mk : Byte → Bytes → Bytes → Instr) (operands : Bytes) : Except DecodeError Instr :=
  match takeTriplet operands with
  | some (pt, data, opt) => .ok (mk pt data opt)
  | none => .error .malformed

/-- Format `N` of 30_encoding R73: no operand. -/
def decodeN (i : Instr) (operands : Bytes) : Except DecodeError Instr :=
  match operands with
  | [] => .ok i
  | _ :: _ => .error .malformed

/-- Format `P` of 30_encoding R73: a Packet, in the ranges of 10_state R22. -/
def decodeP (mk : Packet → Instr) (operands : Bytes) : Except DecodeError Instr :=
  match takeTriplet operands with
  | some (pt, data, opt) =>
    if Packet.wf ⟨pt, data, opt⟩ then .ok (mk ⟨pt, data, opt⟩) else .error .notAPacket
  | none => .error .malformed

/-- The operands of a selected operation, in its format (30_encoding R73). -/
def decodeOperands (op : Op) (operands : Bytes) : Except DecodeError Instr :=
  match op with
  | .crc8 => decodeS .crc8 operands
  | .encode => decodeTSS .encode operands
  | .decode1 => decodeS .decode1 operands
  | .feed => decodeS .feed operands
  | .drain => decodeN .drain operands
  | .reset => decodeN .reset operands
  | .rorg => decodeP .rorg operands
  | .senderid => decodeP .senderid operands
  | .status => decodeP .status operands

/-- The 48-bit prefix row after its sync byte (30_encoding R60, R65): data length big-endian, optional length,
packet type, header checksum, and nothing else. -/
def decodeFramePrefix : Bytes → Except DecodeError Instr
  | [lh, ll, ol, pt, hc] => .ok (.esp3FramePrefix (lh ++ ll) ol pt hc)
  | _ => .error .malformed

/-- A request to an operation, or the reason it is none. -/
def decode : Bytes → Except DecodeError Instr
  | [] => .error .malformed
  | sel :: operands =>
    if sel = Config.sync then decodeFramePrefix operands
    else if sel.extractLsb' 4 4 = 0x0#4 then
      match opOfCode (sel.setWidth 4) with
      | some op => decodeOperands op operands
      | none => .error .illegalOp
    else .error .malformed

/-- An operation as the request that carries it. -/
def encode : Instr → Bytes
  | .crc8 bs => Op.crc8.selectByte :: putSeq bs
  | .encode pt data opt => Op.encode.selectByte :: pt :: (putSeq data ++ putSeq opt)
  | .decode1 bs => Op.decode1.selectByte :: putSeq bs
  | .feed chunk => Op.feed.selectByte :: putSeq chunk
  | .drain => [Op.drain.selectByte]
  | .reset => [Op.reset.selectByte]
  | .rorg p => Op.rorg.selectByte :: putPacket p
  | .senderid p => Op.senderid.selectByte :: putPacket p
  | .status p => Op.status.selectByte :: putPacket p
  | .esp3FramePrefix dl ol pt hc => [Config.sync, dl.extractLsb' 8 8, dl.setWidth 8, ol, pt, hc]

/-- How many zero bytes the operands of an operation take when every operand is empty or zero: one for each byte
and one for the end of each byte sequence. -/
def Op.zeroOperandBytes : Op → Nat
  | .crc8 => 1
  | .encode => 3
  | .decode1 => 1
  | .feed => 1
  | .drain => 0
  | .reset => 0
  | .rorg => 3
  | .senderid => 3
  | .status => 3

/-- The bytes of a table number, most significant first: bit 47 of the prefix row is bit 7 of the byte at frame
offset 0 (spec/opcode_table.json; log 5). A row of 4 bits is one byte. -/
def tableBytes (n w : Nat) : Bytes :=
  match n with
  | 0 => []
  | k + 1 => BitVec.ofNat 8 (w / 256 ^ k) :: tableBytes k w

/-- The request that a table number stands for: its bytes, then the operands all zero. -/
def tableRequest (nbits w : Nat) : Bytes :=
  match tableBytes ((nbits + 7) / 8) w with
  | [] => []
  | sel :: rest =>
    if sel = Config.sync then sel :: rest
    else
      match opOfCode (sel.setWidth 4) with
      | some op => sel :: rest ++ List.replicate (op.zeroOperandBytes - rest.length) 0x00#8
      | none => sel :: rest

/-- What the decoder reads from a number of the opcode table. -/
def decodeTableWord (nbits w : Nat) : Option Instr :=
  match decode (tableRequest nbits w) with
  | .ok i => some i
  | .error _ => none

end Sys2Proof
end

