-- ==== Sys2Proof/Machine/State.lean ====
section
/-! DEFINITION. The state (spec/10_state.md), the results an operation hands back (spec/30_encoding.md R73) and
the ways it ends without one (spec/60_exceptions.md R160). -/

namespace Sys2Proof.Machine

/-- The outcomes of the decoder (42_frame_decode R111). `invalid` does not say which checksum failed. -/
inductive Verdict where
  /-- `Complete(p, n)`: a frame of `n` bytes stands at the front and holds the packet `p`. -/
  | complete (p : Packet) (n : Nat)
  /-- `Incomplete`: more bytes are needed, nothing is consumed. -/
  | incomplete
  /-- `Invalid`: the header or the payload checksum does not match. -/
  | invalid
deriving DecidableEq, Repr

/-- The abnormal endings of an operation (60_exceptions R160). -/
inductive Abnormal where
  /-- ENCODE: `len(data) > 65535` or `len(opt) > 255` (41_frame_encode R101). -/
  | encodingError
  /-- DECODE1: a non-empty operand whose first byte is not the sync byte (42_frame_decode R112). -/
  | noSync
  /-- FEED: the chunk does not fit a finite `BUF_CAP` (43_stream_parser R143). -/
  | bufferOverflow
  /-- Operation select: an unused code (30_encoding R75). -/
  | illegalOp
deriving DecidableEq, Repr

/-- What a completed operation hands back to the host (30_encoding R73). -/
inductive Result where
  /-- CRC8: a byte. -/
  | byte (b : Byte)
  /-- ENCODE: the frame. -/
  | frame (f : Bytes)
  /-- ENCODE: the error `EncodingError`, a defined result (60_exceptions R161; log 7). -/
  | encodingError
  /-- DECODE1, and the prefix row: the decoder's outcome. -/
  | verdict (v : Verdict)
  /-- FEED, RESET: no result, the operation is done. -/
  | done
  /-- DRAIN: the packets in arrival order. -/
  | packets (ps : List Packet)
  /-- RORG, STATUS: a byte, or `none` for `absent`. -/
  | field (b : Option Byte)
  /-- SENDERID: the four bytes in data order, or `none` for `absent` (44_packet_fields R153). -/
  | senderId (bs : Option Bytes)
deriving DecidableEq, Repr

/-- Faults that stop the machine: none. Every abnormal ending of 60_exceptions R160 is either a result
(`EncodingError`) or a call that the spec has the model refuse (log 8), so no step answers a fault. -/
inductive Fault where
deriving DecidableEq, Repr

/-- The requests the machine gives no meaning. -/
inductive Refusal where
  /-- Raised by an arm of `exec` whose instruction has no meaning yet; no arm does. Safe. -/
  | notModelled (mnemonic : String)
  /-- Raised by DECODE1 on a non-empty operand that does not begin with 0x55 (42_frame_decode R112, 60_exceptions
  R163: "the model refuses the call"). Safe: nothing is claimed of such a call. -/
  | noSync
  /-- Raised by FEED in a machine given a finite `BUF_CAP` that `len(BUF) + len(c)` exceeds (43_stream_parser R143,
  60_exceptions R164); never at the default. Safe. -/
  | bufferOverflow
  /-- Raised by `step` on an unused operation select code (30_encoding R75, 60_exceptions R165). Safe. -/
  | illegalOp
  /-- Raised by `step` on bytes that do not follow the model's link format (log 12). Safe. -/
  | malformedRequest
  /-- Raised by `step` on a field view whose operand is outside the ranges of 10_state R22 (log 11). Safe. -/
  | notAPacket
deriving DecidableEq, Repr

/-- The block's storage (10_state R29): bytes named by their offset from the current front. Equal contents are
equal data; there are no addresses (20_memory R52; log 13). -/
abbrev Memory := Bytes

/-- The byte at an offset from the front; `none` past the end, which no operation reads (00_scope section 6.3). -/
def Memory.byteAt (m : Memory) (off : Nat) : Option Byte := m[off]?

/-- The storage's form: with a finite capacity, no more bytes than that (20_memory R54). -/
def Memory.wf (cap : Option Nat) (m : Memory) : Bool :=
  match cap with
  | none => true
  | some n => decide (m.length ≤ n)

/-- The block's own state, the whole of what the spec gives it: `BUF` (10_state R20, R24 to R30). -/
structure Block where
  /-- `BUF`, the parser buffer: front first, unbounded (10_state R20). -/
  buf : Memory
deriving DecidableEq, Repr

/-- The block's environment: the host's side of a step, which is no state of the block (10_state R31; log 2). -/
structure Environment where
  /-- The operations the host has issued and the block has not begun, each as its request's bytes, in order of
  issue (00_scope R12; log 2). -/
  requests : List Bytes
  /-- What the last completed operation handed back, `none` before the first (log 2). -/
  result : Option Result
deriving DecidableEq, Repr

/-- What a step goes from and to: the block, and beside it its environment (10_state R31). -/
structure State extends Block, Environment
deriving DecidableEq, Repr

/-- The state after reset: `BUF` empty (10_state R21, 70_reset_and_hazards R185). The environment's part is the
model's: no operation issued, none completed (log 16). -/
def State.reset : State := { buf := [], requests := [], result := none }

end Sys2Proof.Machine
end

