-- ==== Sys2Proof/Machine/Flags.lean ====
section
/-! DEFINITION. The block has no flags and no condition codes (spec/10_state.md R26): the outcome of an operation is
its result and nothing else. What the spec gives instead is a number for each outcome and each ending
(spec/30_encoding.md R76, spec/60_exceptions.md R160). -/

namespace Sys2Proof.Machine

/-- The number of a decode outcome (30_encoding R76). -/
def Verdict.number : Verdict → Nat
  | .complete _ _ => 0
  | .incomplete => 1
  | .invalid => 2

/-- The number of an abnormal ending (30_encoding R76, 60_exceptions R160). -/
def Abnormal.number : Abnormal → Nat
  | .encodingError => 1
  | .noSync => 2
  | .bufferOverflow => 3
  | .illegalOp => 4

/-- The operation status of a completed operation (30_encoding R76): 0 is `OK`. -/
def Result.status : Result → Nat
  | .encodingError => Abnormal.encodingError.number
  | .byte _ | .frame _ | .verdict _ | .done | .packets _ | .field _ | .senderId _ => 0

/-- The operation status of a refused request, where the spec numbers it (30_encoding R76). -/
def Refusal.status : Refusal → Option Nat
  | .noSync => some Abnormal.noSync.number
  | .bufferOverflow => some Abnormal.bufferOverflow.number
  | .illegalOp => some Abnormal.illegalOp.number
  | _ => none

/-- The operation status that a step's outcome shows (30_encoding R76); none where nothing has completed. -/
def outcomeStatus : Host.Outcome State Fault Refusal → Option Nat
  | .next s => s.result.map Result.status
  | .fault f => nomatch f
  | .refused r => r.status

end Sys2Proof.Machine
end

