-- ==== Sys2Proof/Machine/Operands.lean ====
section
/-! DEFINITION. The notation of spec/00_scope.md section 6 as functions: slices, find, multi-byte numbers, hex. -/

namespace Sys2Proof.Machine

/-- `s[i..j)`, the half-open slice (00_scope section 6.2). -/
def slice (s : Bytes) (i j : Nat) : Bytes := (s.drop i).take (j - i)

/-- `find(s, v)`, the least offset of the byte `v`, if it occurs (00_scope section 6.2). -/
def find (v : Byte) : Bytes → Option Nat
  | [] => none
  | b :: bs => if b = v then some 0 else (find v bs).map (· + 1)

/-- The data length from its two bytes: `(zext_16(b[1]) << 8) | zext_16(b[2])` (20_memory R43, 30_encoding R65). -/
def dataLength (high low : Byte) : BitVec 16 := ((high.setWidth 16) <<< 8) ||| low.setWidth 16

/-- `dl[15:8]`, the byte at frame offset 1 (30_encoding R66). -/
def highByte (dl : BitVec 16) : Byte := dl.extractLsb' 8 8

/-- `dl[7:0]`, the byte at frame offset 2 (30_encoding R66). -/
def lowByte (dl : BitVec 16) : Byte := dl.extractLsb' 0 8

/-- `frame_len = 6 + dl + ol + 1`, on natural numbers, so without wrap-around (30_encoding R61, R65). -/
def frameLength (dl : BitVec 16) (ol : Byte) : Nat := 6 + dl.toNat + ol.toNat + 1

/-- The upper-case hexadecimal digit of a number below 16. -/
def hexDigit (n : Nat) : Char :=
  ['0', '1', '2', '3', '4', '5', '6', '7', '8', '9', 'A', 'B', 'C', 'D', 'E', 'F'].getD n '0'

/-- `hex2(b)`: two upper-case hexadecimal characters (00_scope section 6.2). -/
def hex2 (b : Byte) : List Char := [hexDigit (b.toNat / 16), hexDigit (b.toNat % 16)]

/-- `hex(s)`: `hex2` of every byte in order (00_scope section 6.2). -/
def hex (s : Bytes) : List Char := s.flatMap hex2

/-- A byte sequence read as one number, first byte most significant (20_memory R45, 44_packet_fields R153). -/
def bigEndian (s : Bytes) : Nat := s.foldl (fun acc b => acc * 256 + b.toNat) 0

end Sys2Proof.Machine
end

