-- ==== Sys2Proof/Machine/Ops.lean ====
section
/-! DEFINITION. The named operations over the state: the accesses to `BUF` (spec/20_memory.md R40), handing back a
result, ending abnormally (spec/60_exceptions.md R170), and taking the host's next request. -/

namespace Sys2Proof.Machine

/-- `Append(c)`: `BUF <- BUF ++ c` (00_scope section 6.3). -/
def Memory.append (m : Memory) (c : Bytes) : Memory := List.append m c

/-- `DropFront(n)`: `BUF <- BUF[n..)` (00_scope section 6.3). -/
def Memory.dropFront (m : Memory) (n : Nat) : Memory := List.drop n m

/-- `BUF <- []`, which is `DropFront(len(BUF))` (00_scope section 6.3). -/
def Memory.clear (_ : Memory) : Memory := []

/-- `BUF <- m`, the rest as it is; only FEED, DRAIN and RESET use it (10_state R20). -/
def State.setBuf (s : State) (m : Memory) : State := { s with buf := m }

/-- The state in which the block hands `r` back to the host; `BUF` is as it was. -/
def State.answer (s : State) (r : Result) : State := { s with result := some r }

/-- The operation ends normally with the result `r`. -/
def finish (r : Result) (s : State) : Host.Outcome State Fault Refusal := .next (s.answer r)

/-- The operation ends abnormally (60_exceptions R170): nothing is saved and `BUF` is as it was. `EncodingError` is a
defined result and the run goes on (R161; log 7); the other three are calls the model refuses (R163, R164, R165;
log 8). There is no return instruction and nothing to restore (R172). -/
def raise (e : Abnormal) (s : State) : Host.Outcome State Fault Refusal :=
  match e with
  | .encodingError => .next (s.answer .encodingError)
  | .noSync => .refused .noSync
  | .bufferOverflow => .refused .bufferOverflow
  | .illegalOp => .refused .illegalOp

/-- An operation that reads and writes no state ends with its result or with its error. -/
def conclude (r : Except Abnormal Result) (s : State) : Host.Outcome State Fault Refusal :=
  match r with
  | .ok r => finish r s
  | .error e => raise e s

/-- Whether a chunk fits: `len(BUF) + len(c) <= BUF_CAP`, always so when the capacity is unbounded (43_stream_parser
R143). -/
def fits (cap : Option Nat) (buf c : Bytes) : Bool :=
  match cap with
  | none => true
  | some n => decide (buf.length + c.length ≤ n)

/-- How the machine ends on a request that names no operation (30_encoding R75; log 11, log 12). -/
def rejectRequest (e : DecodeError) (s : State) : Host.Outcome State Fault Refusal :=
  match e with
  | .illegalOp => raise .illegalOp s
  | .malformed => .refused .malformedRequest
  | .notAPacket => .refused .notAPacket

/-- What the block finds when it is ready for the next operation. -/
inductive Fetched where
  /-- The host has issued nothing: the block is idle (70_reset_and_hazards R189). -/
  | idle
  /-- The next operation, and the state with its request taken. -/
  | operation (i : Instr) (s : State)
  /-- A request that names no operation. -/
  | rejected (e : DecodeError)
deriving DecidableEq, Repr

/-- Takes the request issued first (20_memory R55: the operations form one total order, the order of issue). -/
def fetch (s : State) : Fetched :=
  match s.requests with
  | [] => .idle
  | request :: rest =>
    match decode request with
    | .ok i => .operation i { s with requests := rest }
    | .error e => .rejected e

end Sys2Proof.Machine
end

