-- ==== Sys2Proof/Machine/Fields.lean ====
section
/-! DEFINITION. The derived packet fields (spec/44_packet_fields.md): RORG, SENDERID, STATUS. -/

namespace Sys2Proof.Machine

/-- `RORG`'s function: the first data byte of an ERP1 packet (44_packet_fields R150). -/
def rorgOf (p : Packet) : Option Byte := if p.packetType = Config.ptErp1 then p.data[0]? else none

/-- `SENDERID`'s function: `data[n-5 .. n-1)` of an ERP1 packet with at least six data bytes (44_packet_fields R151). -/
def senderIdOf (p : Packet) : Option Bytes :=
  if p.packetType = Config.ptErp1 ∧ p.data.length ≥ 6 then
    some (slice p.data (p.data.length - 5) (p.data.length - 1))
  else none

/-- `STATUS`'s function: the last data byte of an ERP1 packet (44_packet_fields R152). -/
def statusOf (p : Packet) : Option Byte :=
  if p.packetType = Config.ptErp1 then p.data.getLast? else none

/-- The sender id as the source renders it: upper-case hexadecimal (44_packet_fields R153). -/
def senderIdText (p : Packet) : Option (List Char) := (senderIdOf p).map hex

/-- The sender id as one number, first byte most significant (44_packet_fields R153). -/
def senderIdNumber (p : Packet) : Option Nat := (senderIdOf p).map bigEndian

/-- `RORG p` (44_packet_fields R150). -/
def execRorg (p : Packet) (s : State) : Host.Outcome State Fault Refusal := finish (.field (rorgOf p)) s

/-- `SENDERID p` (44_packet_fields R151). -/
def execSenderid (p : Packet) (s : State) : Host.Outcome State Fault Refusal := finish (.senderId (senderIdOf p)) s

/-- `STATUS p` (44_packet_fields R152). -/
def execStatus (p : Packet) (s : State) : Host.Outcome State Fault Refusal := finish (.field (statusOf p)) s

end Sys2Proof.Machine
end

