-- ==== Sys2Proof/Machine/Crc8.lean ====
section
/-! DEFINITION. The CRC-8 checksum engine (spec/40_crc8.md) and the operation CRC8. -/

namespace Sys2Proof.Machine

/-- One round (40_crc8 R90): the high bit is tested before the shift; the 8-bit width is the mask. -/
def crc8Round (a : Byte) : Byte := if a.msb then (a <<< 1) ^^^ Config.poly else a <<< 1

/-- `n` rounds. -/
def crc8Rounds : Nat → Byte → Byte
  | 0, a => a
  | n + 1, a => crc8Rounds n (crc8Round a)

/-- `crc8_step(acc, b)`: one byte through the accumulator (40_crc8 R90). -/
def crc8Step (acc b : Byte) : Byte := crc8Rounds 8 (acc ^^^ b)

/-- `crc8(s)`: the bytes in sequence order from the initial accumulator, no final XOR (40_crc8 R91). -/
def crc8 (s : Bytes) : Byte := s.foldl crc8Step Config.crcInit

/-- `CRC8 s` (40_crc8 R91). -/
def execCrc8 (bs : Bytes) (s : State) : Host.Outcome State Fault Refusal := finish (.byte (crc8 bs)) s

end Sys2Proof.Machine
end

