-- ==== Sys2Proof/Machine/Frame.lean ====
section
/-! DEFINITION. The ESP3 frame codec (spec/30_encoding.md section 1, spec/41_frame_encode.md, spec/42_frame_decode.md)
and the operations ENCODE, DECODE1 and the prefix row. -/

namespace Sys2Proof.Machine

/-- The four header bytes, in order (41_frame_encode R100). -/
def headerBytes (dl : BitVec 16) (ol pt : Byte) : Bytes := [highByte dl, lowByte dl, ol, pt]

/-- The frame of a triplet whose lengths fit (30_encoding R60): sync, header, header checksum, data, optional data,
payload checksum. The two checksums are two computations (40_crc8 R94). -/
def frameOf (pt : Byte) (data opt : Bytes) : Bytes :=
  let h := headerBytes (BitVec.ofNat 16 data.length) (BitVec.ofNat 8 opt.length) pt
  [Config.sync] ++ h ++ [crc8 h] ++ data ++ opt ++ [crc8 (data ++ opt)]

/-- `ENCODE`'s function (41_frame_encode R100, R101). -/
def encodeFrame (pt : Byte) (data opt : Bytes) : Except Abnormal Bytes :=
  if data.length > Config.dataMax ∨ opt.length > Config.optMax then .error .encodingError
  else .ok (frameOf pt data opt)

/-- The decode step once the six prefix bytes are there (42_frame_decode R115 to R118). `body` is `b[6..)`; `len` is
`len(b)`. -/
def decodeBody (len : Nat) (lh ll ol pt hc : Byte) (body : Bytes) : Verdict :=
  if crc8 [lh, ll, ol, pt] ≠ hc then .invalid
  else
    let dl := dataLength lh ll
    let frameLen := frameLength dl ol
    if len < frameLen then .incomplete
    else
      let data := slice body 0 dl.toNat
      let opt := slice body dl.toNat (dl.toNat + ol.toNat)
      let pc8 := body.getD (dl.toNat + ol.toNat) 0x00#8
      if crc8 (data ++ opt) ≠ pc8 then .invalid else .complete ⟨pt, data, opt⟩ frameLen

/-- `decode1(b)`, the tests in the order of 42_frame_decode R110 (60_exceptions R168): empty, first byte, six bytes,
then the rest. The only error is `NoSync` (R112). -/
def decode1 (b : Bytes) : Except Abnormal Verdict :=
  match b with
  | [] => .ok .incomplete
  | b0 :: rest =>
    if b0 ≠ Config.sync then .error .noSync
    else
      match rest with
      | lh :: ll :: ol :: pt :: hc :: body => .ok (decodeBody b.length lh ll ol pt hc body)
      | _ => .ok .incomplete

/-- `ENCODE pt, data, opt` (41_frame_encode R100). -/
def execEncode (pt : Byte) (data opt : Bytes) (s : State) : Host.Outcome State Fault Refusal :=
  conclude ((encodeFrame pt data opt).map .frame) s

/-- `DECODE1 b` (42_frame_decode R110); it does not look at `BUF` (R119). -/
def execDecode1 (bs : Bytes) (s : State) : Host.Outcome State Fault Refusal :=
  conclude ((decode1 bs).map .verdict) s

/-- The prefix row (30_encoding R60, section 6): the decode step's verdict on the six bytes 55 L L O T H, which are
too few for a frame, so `Invalid` or `Incomplete` (42_frame_decode R115, R116). DESIGN CHOICE (log 6). -/
def execEsp3FramePrefix (dl : BitVec 16) (ol pt hc : Byte) (s : State) : Host.Outcome State Fault Refusal :=
  conclude ((decode1 (Config.sync :: headerBytes dl ol pt ++ [hc])).map .verdict) s

end Sys2Proof.Machine
end

