-- ==== Sys2Proof/Machine/Parser.lean ====
section
/-! DEFINITION. The stream parser (spec/43_stream_parser.md): FEED, DRAIN, RESET. -/

namespace Sys2Proof.Machine

/-- `DRAIN`'s loop on a buffer, at most `fuel` passes (43_stream_parser R127): the packets extracted, in arrival order,
and the buffer left. The passes are R128 (no sync byte), R129 (noise before it), R130 (`Invalid`), R131
(`Incomplete`) and R132 (`Complete`). With the sync byte in front `decode1` cannot raise `NoSync` (R127); the loop
stops there. -/
def drainLoop : Nat → Memory → List Packet × Memory
  | 0, b => ([], b)
  | fuel + 1, b =>
    match find Config.sync b with
    | none => ([], b.clear)
    | some i =>
      let b := b.dropFront i
      match decode1 b with
      | .ok .invalid => drainLoop fuel (b.dropFront 1)
      | .ok .incomplete => ([], b)
      | .ok (.complete p n) =>
        let more := drainLoop fuel (b.dropFront n)
        (p :: more.1, more.2)
      | .error _ => ([], b)

/-- `DRAIN`'s function: a buffer of `L` bytes takes at most `L + 1` passes (43_stream_parser R134; log 14). -/
def drainBuf (b : Memory) : List Packet × Memory := drainLoop (b.length + 1) b

/-- `FEED c` with the capacity as an argument (00_scope R5): 43_stream_parser R125, and R143 where it is finite. -/
def feedWithin (cap : Option Nat) (chunk : Bytes) (s : State) : Host.Outcome State Fault Refusal :=
  if fits cap s.buf chunk then finish .done (s.setBuf (s.buf.append chunk)) else raise .bufferOverflow s

/-- `FEED c` at the spec's default, a capacity without bound (43_stream_parser R125). -/
def execFeed (chunk : Bytes) (s : State) : Host.Outcome State Fault Refusal :=
  feedWithin Config.default.bufCap chunk s

/-- `DRAIN` (43_stream_parser R127). -/
def execDrain (s : State) : Host.Outcome State Fault Refusal :=
  let drained := drainBuf s.buf
  finish (.packets drained.1) (s.setBuf drained.2)

/-- `RESET` (43_stream_parser R140): it empties `BUF` and touches nothing else (log 19). -/
def execReset (s : State) : Host.Outcome State Fault Refusal := finish .done (s.setBuf s.buf.clear)

end Sys2Proof.Machine
end

