-- ==== Sys2Proof/Machine/Dispatch.lean ====
section
/-! DEFINITION. One arm per operation. -/

namespace Sys2Proof.Machine

def exec (i : Instr) (s : State) : Host.Outcome State Fault Refusal :=
  match i with
  | .crc8 bs => Sys2Proof.Machine.execCrc8 bs s
  | .encode pt data opt => Sys2Proof.Machine.execEncode pt data opt s
  | .decode1 bs => Sys2Proof.Machine.execDecode1 bs s
  | .feed chunk => Sys2Proof.Machine.execFeed chunk s
  | .drain => Sys2Proof.Machine.execDrain s
  | .reset => Sys2Proof.Machine.execReset s
  | .rorg p => Sys2Proof.Machine.execRorg p s
  | .senderid p => Sys2Proof.Machine.execSenderid p s
  | .status p => Sys2Proof.Machine.execStatus p s
  | .esp3FramePrefix dl ol pt hc => Sys2Proof.Machine.execEsp3FramePrefix dl ol pt hc s

end Sys2Proof.Machine
end

