-- ==== Sys2Proof/Machine/Parameters.lean ====
section
/-! DEFINITION. The operations of a block whose open parameters are given as an argument (spec/00_scope.md R5). -/

namespace Sys2Proof.Machine

/-- `exec` with the open parameters given. FEED alone reads one, `BUF_CAP` (43_stream_parser R143); that CHUNK_MAX and
PKTS_MAX change no operation is log 10. -/
def execWith (params : Config) (i : Instr) (s : State) : Host.Outcome State Fault Refusal :=
  match i with
  | .feed chunk => feedWithin params.bufCap chunk s
  | .crc8 _ | .encode _ _ _ | .decode1 _ | .drain | .reset | .rorg _ | .senderid _ | .status _ => exec i s
  | .esp3FramePrefix _ _ _ _ => exec i s

end Sys2Proof.Machine
end

