-- ==== Sys2Proof/Machine/Step.lean ====
section
/-! DEFINITION. One step: one operation, start to end (spec/00_scope.md R7, spec/20_memory.md R50). -/

namespace Sys2Proof.Machine

/-- The block takes the host's next request and performs it; with none pending it is idle and nothing changes
(log 3). The first request is refused where it names no operation. -/
def stepBy (perform : Instr → State → Host.Outcome State Fault Refusal) (s : State) :
    Host.Outcome State Fault Refusal :=
  match fetch s with
  | .idle => .next s
  | .operation i s' => perform i s'
  | .rejected e => rejectRequest e s

/-- One step of the machine, the open parameters at the spec's defaults. -/
def step (s : State) : Host.Outcome State Fault Refusal := stepBy exec s

/-- One step of a machine whose open parameters are given (00_scope R5; log 9). -/
def stepWith (params : Config) (s : State) : Host.Outcome State Fault Refusal := stepBy (execWith params) s

/-- `s` with the request of an opcode-table number issued ahead of every other, so that the next step performs it
(log 4). -/
def State.withFetchWord (s : State) (nbits w : Nat) : State :=
  { s with requests := tableRequest nbits w :: s.requests }

end Sys2Proof.Machine
end

