-- ==== Sys2Proof/Safety.lean ====
section
/-! DEFINITION. The terms in which claims speak: safe steps, runs of operations as the host issues them, the host's
contract (spec/00_scope.md R10 to R13, spec/70_reset_and_hazards.md R188) and the invariant of the state. -/

namespace Sys2Proof

/-- The chunk is no longer than `CHUNK_MAX` (00_scope R5; log 10). -/
def Config.AllowsChunk (params : Config) (c : Bytes) : Prop := ∀ m, params.chunkMax = some m → c.length ≤ m

/-- The list is no longer than `PKTS_MAX` (00_scope R5; log 10). -/
def Config.AllowsPackets (params : Config) (ps : List Packet) : Prop := ∀ m, params.pktsMax = some m → ps.length ≤ m

/-- The capacity holds at least `n` bytes: unbounded, or finite and no less. -/
def Config.Holds (params : Config) (n : Nat) : Prop := ∀ m, params.bufCap = some m → n ≤ m

end Sys2Proof

namespace Sys2Proof.Machine

/-- The machine whose open parameters are given (00_scope R5 "A model takes the open rows as arguments"; log 9). At the
defaults it is `core`. -/
def coreWith (params : Config) : Host.Core :=
  { State := State, Fault := Fault, Refusal := Refusal, step := stepWith params, reset := State.reset }

/-- The next step is not refused. -/
def Safe (s : State) : Prop := ∃ t, step s = .next t

/-- The packets a result hands over (43_stream_parser R127). -/
def packetsIn : Option Result → List Packet
  | some (.packets ps) => ps
  | _ => []

/-- The operations in order of issue (20_memory R55): the state after the last one, and every packet handed over on
the way, in the order of the results; `none` when one of them is refused. "The end of a run" is the state after the
last operation (70_reset_and_hazards R189). -/
def runOpsBy (perform : Instr → State → Host.Outcome State Fault Refusal) :
    List Instr → State → Option (State × List Packet)
  | [], s => some (s, [])
  | i :: is, s =>
    match perform i s with
    | .next t => (runOpsBy perform is t).map fun r => (r.1, packetsIn t.result ++ r.2)
    | .fault _ => none
    | .refused _ => none

/-- A run of operations of the machine, its parameters at the defaults. -/
abbrev runOps : List Instr → State → Option (State × List Packet) := runOpsBy exec

/-- A run of operations of a machine whose open parameters are given. -/
abbrev runOpsWith (params : Config) : List Instr → State → Option (State × List Packet) := runOpsBy (execWith params)

/-- The host's receive loop: for each received chunk, `FEED c` then `DRAIN` (00_scope R10). -/
def receiveLoop (chunks : List Bytes) : List Instr := chunks.flatMap fun c => [.feed c, .drain]

/-- The operations of the receive side: FEED and DRAIN in any order and number (43_stream_parser R137). -/
def isFeedOrDrain : Instr → Bool
  | .feed _ | .drain => true
  | .crc8 _ | .encode _ _ _ | .decode1 _ | .reset | .rorg _ | .senderid _ | .status _ => false
  | .esp3FramePrefix _ _ _ _ => false

/-- The byte stream that a sequence of operations feeds (43_stream_parser R137). -/
def fedBytes : List Instr → Bytes
  | [] => []
  | .feed c :: is => c ++ fedBytes is
  | _ :: is => fedBytes is

/-- A run of bytes with no sync byte in it: noise, as long as no frame comes before it (43_stream_parser R128). -/
abbrev Noise (bs : Bytes) : Prop := Config.sync ∉ bs

/-- The frame of a packet (43_stream_parser R142: "frames made by `ENCODE`"). -/
def frameOfPacket (p : Packet) : Bytes := frameOf p.packetType p.data p.opt

/-- A byte stream of frames, each with the bytes that stand before it. -/
def streamOf (items : List (Bytes × Packet)) : Bytes := items.flatMap fun it => it.1 ++ frameOfPacket it.2

/-- What a result may be: packets in the ranges of 10_state R22, a frame of a legal length that begins with the sync
byte (41_frame_encode R102), a frame count that is the packet's frame length (30_encoding R61), a sender id of four
bytes (44_packet_fields R151). -/
def Result.wf : Result → Bool
  | .frame f => decide (Config.frameMin ≤ f.length) && decide (f.length ≤ Config.frameMax) && f.head? == some Config.sync
  | .verdict (.complete p n) => p.wf && n == 7 + p.data.length + p.opt.length
  | .packets ps => ps.all Packet.wf
  | .senderId (some bs) => bs.length == 4
  | .byte _ | .encodingError | .verdict .incomplete | .verdict .invalid | .done | .field _ | .senderId none => true

/-- The invariant of a machine whose open parameters are given: the buffer is within its capacity (20_memory R54), and
the result handed back is one the spec allows. -/
def State.InvWith (params : Config) (s : State) : Prop :=
  Memory.wf params.bufCap s.buf = true ∧ ∀ r, s.result = some r → r.wf = true

/-- The invariant of the machine, its parameters at the defaults. -/
abbrev State.Inv (s : State) : Prop := s.InvWith Config.default

end Sys2Proof.Machine
end

