-- ==== Sys2Proof/Certificates/Slice0/Obligations.lean ====
section
/-! DEFINITION. The statements for the provers. Each says in its docstring which rule of spec/ it formalises. A
statement that rests on a choice of the model or on an inference or decision that the spec marks as its own says so. -/

open Sys2Proof Sys2Proof.Machine

/-! ## Reference definitions used by the statements -/

/-- The eight bits of a byte, most significant first (20_memory R44). -/
def Sys2Proof.bitsOfByte (b : Byte) : List Bool := (List.range 8).map b.getMsbD

/-- One bit through a shift register with the polynomial x^8 + x^2 + x + 1: the incoming bit meets the high bit, the
register shifts left, and 0x07 is fed back where the two differ. -/
def Sys2Proof.serialBit (acc : Byte) (bit : Bool) : Byte :=
  (acc <<< 1) ^^^ (if acc.msb != bit then 0x07#8 else 0x00#8)

/-- The checksum of a bit stream: no bytes, no rounds. -/
def Sys2Proof.serialCrc (bs : Bytes) : Byte := (bs.flatMap bitsOfByte).foldl serialBit 0x00#8

/-- The work of a host that finds packets with DECODE1 alone, by the steps of 70_reset_and_hazards R195: it discards
everything before the first 0x55, drops exactly the sync byte on `Invalid`, keeps every byte on `Incomplete`, removes
`n` bytes on `Complete(p, n)`. `HostScan b ps b'`: from the bytes `b` it gets the packets `ps` and keeps `b'`. -/
inductive Sys2Proof.HostScan : Bytes → List Packet → Bytes → Prop where
  | noise (b : Bytes) : Noise b → HostScan b [] []
  | discard (pre rest : Bytes) (ps : List Packet) (kept : Bytes) : Noise pre → pre ≠ [] →
      HostScan (0x55#8 :: rest) ps kept → HostScan (pre ++ 0x55#8 :: rest) ps kept
  | invalid (rest : Bytes) (ps : List Packet) (kept : Bytes) : decode1 (0x55#8 :: rest) = .ok .invalid →
      HostScan rest ps kept → HostScan (0x55#8 :: rest) ps kept
  | incomplete (rest : Bytes) : decode1 (0x55#8 :: rest) = .ok .incomplete →
      HostScan (0x55#8 :: rest) [] (0x55#8 :: rest)
  | complete (rest : Bytes) (p : Packet) (n : Nat) (ps : List Packet) (kept : Bytes) :
      decode1 (0x55#8 :: rest) = .ok (.complete p n) →
      HostScan ((0x55#8 :: rest).drop n) ps kept → HostScan (0x55#8 :: rest) (p :: ps) kept

/-! ## Requests: encoding and decoding -/

/-- The codes of 30_encoding R74 and the prefix pattern of R60, on numbers of opcode_table.json with operands of
zeros; the unused codes 0, 7 and F give nothing. The form of the operands is the model's (log 1, log 5). -/
def Obligations.TableNumbersDecodeToTheirRows : Prop :=
  decodeTableWord 8 0x1 = some (.crc8 []) ∧
  decodeTableWord 8 0x2 = some (.encode 0x00#8 [] []) ∧
  decodeTableWord 8 0x3 = some (.decode1 []) ∧
  decodeTableWord 8 0x4 = some (.feed []) ∧
  decodeTableWord 8 0x5 = some .drain ∧
  decodeTableWord 8 0x6 = some .reset ∧
  decodeTableWord 8 0x8 = some (.rorg ⟨0x00#8, [], []⟩) ∧
  decodeTableWord 8 0x9 = some (.senderid ⟨0x00#8, [], []⟩) ∧
  decodeTableWord 8 0xA = some (.status ⟨0x00#8, [], []⟩) ∧
  decodeTableWord 48 0x55000707017A = some (.esp3FramePrefix 0x0007#16 0x07#8 0x01#8 0x7A#8) ∧
  decodeTableWord 8 0x0 = none ∧ decodeTableWord 8 0x7 = none ∧ decodeTableWord 8 0xF = none

/-- Every well-formed operation, with every operand, is what its request decodes to. The link format is the model's
(log 1); the select codes are those of 30_encoding R74, the prefix that of R60. -/
def Obligations.DecodeOfEncodeIsTheOperation : Prop :=
  ∀ i : Instr, i.wellFormed = true → decode (encode i) = .ok i

/-- A request that decodes is the encoding of a well-formed operation and of no other: no request has two readings
and none falls through to a neighbour (30_encoding R75). The link format is the model's (log 1). -/
def Obligations.OnlyEncodingsDecode : Prop :=
  ∀ (request : Bytes) (i : Instr), decode request = .ok i → i.wellFormed = true ∧ encode i = request

/-- 30_encoding R75 (a decision of the spec, D3): exactly the codes 0, 7, B, C, D, E, F select no operation, whatever
follows them, and the model refuses them. That the code arrives as the low half of a select byte with the operands
behind it is the model's choice (log 1), and so is the list of requests that a step takes it from (log 2). -/
def Obligations.UnusedCodesAreRefused : Prop :=
  ∀ (code : BitVec 4) (operands : Bytes),
    (decode (code.setWidth 8 :: operands) = .error .illegalOp ↔
      code ∈ [0x0#4, 0x7#4, 0xB#4, 0xC#4, 0xD#4, 0xE#4, 0xF#4]) ∧
    ∀ (s : State) (rest : List Bytes), code ∈ [0x0#4, 0x7#4, 0xB#4, 0xC#4, 0xD#4, 0xE#4, 0xF#4] →
      s.requests = (code.setWidth 8 :: operands) :: rest → step s = .refused .illegalOp

/-- A step performs the operation that the first pending request decodes to, on the state without that request; with
none pending nothing changes (00_scope R7; the list of requests is the model's, log 2, log 3). -/
def Obligations.StepPerformsTheDecodedOperation : Prop :=
  ∀ s : State,
    (∀ (request : Bytes) (rest : List Bytes) (i : Instr), s.requests = request :: rest → decode request = .ok i →
      step s = exec i { s with requests := rest }) ∧
    (s.requests = [] → step s = .next s)

/-- The machine, and one given any parameters, performs the issued operations one after another, in the order of issue,
each on the state the one before it left (20_memory R50, R55; the list of requests is the model's, log 2). -/
def Obligations.StepsPerformTheIssuedSequence : Prop :=
  ∀ (ops : List Instr) (s t : State) (later : List Bytes) (ps : List Packet),
    (∀ i ∈ ops, i.wellFormed = true) → s.requests = ops.map encode ++ later →
    (runOps ops { s with requests := later } = some (t, ps) → Host.Core.run core ops.length s = .next t) ∧
    ∀ params : Config, runOpsWith params ops { s with requests := later } = some (t, ps) →
      Host.Core.run (coreWith params) ops.length s = .next t

/-! ## CRC8 -/

/-- 40_crc8 R90, R91 and R93: `CRC8 s` answers the remainder that a bit-serial shift register gives, most significant
bit first, initial value 0, no reflection, no final XOR; it always completes and changes nothing else. -/
def Obligations.Crc8AnswersTheBitSerialChecksum : Prop :=
  ∀ (bs : Bytes) (s : State), exec (.crc8 bs) s = .next (s.answer (.byte (serialCrc bs)))

/-- 40_crc8 R92: `crc8([]) = 0x00`. -/
def Obligations.Crc8OfNothingIsZero : Prop :=
  crc8 [] = 0x00#8 ∧ ∀ s : State, exec (.crc8 []) s = .next (s.answer (.byte 0x00#8))

/-- 40_crc8 R95 laws 5 and 6 (inferences of the spec): leading zeros are invisible, and a message followed by its own
checksum has checksum 0. -/
def Obligations.Crc8OfMessageAndItsChecksumIsZero : Prop :=
  ∀ bs : Bytes, crc8 (bs ++ [crc8 bs]) = 0x00#8 ∧ crc8 (0x00#8 :: bs) = crc8 bs

/-- 40_crc8 R95 law 4 (an inference of the spec): linearity over XOR for equal lengths. -/
def Obligations.Crc8IsLinearOnEqualLengths : Prop :=
  ∀ s t : Bytes, s.length = t.length → crc8 (List.zipWith (· ^^^ ·) s t) = crc8 s ^^^ crc8 t

/-- 40_crc8 R95 law 7 (an inference of the spec): two sequences that differ in exactly one byte never have the same
checksum. -/
def Obligations.Crc8DetectsEverySingleByteChange : Prop :=
  ∀ (pre post : Bytes) (a b : Byte), a ≠ b → crc8 (pre ++ a :: post) ≠ crc8 (pre ++ b :: post)

/-- 40_crc8 R95 law 8 (an inference of the spec): among the sequences that differ in their last byte alone, exactly
one has any given checksum, hence a fraction of exactly 1/256 of every length of at least 1. -/
def Obligations.Crc8LastByteReachesEveryValueOnce : Prop :=
  ∀ (pre : Bytes) (v : Byte), ∃ b : Byte, crc8 (pre ++ [b]) = v ∧ ∀ b' : Byte, crc8 (pre ++ [b']) = v → b' = b

/-! ## ENCODE -/

/-- 30_encoding R60 and R61: the frame, offset by offset, and its length. `ENCODE` completes on every operand within
the limits, with nothing else changed. -/
def Obligations.EncodeAnswersTheLaidOutFrame : Prop :=
  ∀ (pt : Byte) (data opt : Bytes) (s : State), data.length ≤ 65535 → opt.length ≤ 255 →
    ∃ f : Bytes, exec (.encode pt data opt) s = .next (s.answer (.frame f)) ∧
      f.length = 6 + data.length + opt.length + 1 ∧ 7 ≤ f.length ∧ f.length ≤ 65797 ∧
      f[0]? = some 0x55#8 ∧
      f[1]? = some (BitVec.ofNat 8 (data.length / 256)) ∧
      f[2]? = some (BitVec.ofNat 8 (data.length % 256)) ∧
      f[3]? = some (BitVec.ofNat 8 opt.length) ∧
      f[4]? = some pt ∧
      f[5]? = some (crc8 ((f.drop 1).take 4)) ∧
      (∀ k, k < data.length → f[6 + k]? = data[k]?) ∧
      (∀ k, k < opt.length → f[6 + data.length + k]? = opt[k]?) ∧
      f[6 + data.length + opt.length]? = some (crc8 (data ++ opt))

/-- 41_frame_encode R101: `EncodingError` exactly when `len(data) >= 65536` or `len(opt) >= 256`, as the operation's
result, with no state change. -/
def Obligations.EncodeFailsExactlyOnOverlongOperands : Prop :=
  ∀ (pt : Byte) (data opt : Bytes) (s : State),
    (exec (.encode pt data opt) s = .next (s.answer .encodingError) ↔ 65536 ≤ data.length ∨ 256 ≤ opt.length)

/-- 41_frame_encode R106: a frame that ENCODE built decodes to its packet and its length, with any bytes after it. -/
def Obligations.EncodedFrameDecodesToItsPacket : Prop :=
  ∀ (pt : Byte) (data opt after : Bytes) (s : State), data.length ≤ 65535 → opt.length ≤ 255 →
    ∃ f : Bytes, exec (.encode pt data opt) s = .next (s.answer (.frame f)) ∧
      exec (.decode1 (f ++ after)) s = .next (s.answer (.verdict (.complete ⟨pt, data, opt⟩ f.length)))

/-- 42_frame_decode R118 (its last sentence, an inference of the spec): a decoded packet is in range and encodes to
exactly the bytes it was decoded from. -/
def Obligations.DecodedPacketEncodesToItsBytes : Prop :=
  ∀ (b : Bytes) (p : Packet) (n : Nat) (s : State),
    exec (.decode1 b) s = .next (s.answer (.verdict (.complete p n))) →
    p.wf = true ∧ exec (.encode p.packetType p.data p.opt) s = .next (s.answer (.frame (b.take n)))

/-! ## DECODE1 -/

/-- 42_frame_decode R112 and R113 (decisions of the spec, D4 and D5): DECODE1 is refused as `NoSync` exactly on a
non-empty operand whose first byte is not 0x55, however short; on the empty operand it is `Incomplete`. -/
def Obligations.Decode1IsRefusedExactlyWithoutSync : Prop :=
  ∀ (b : Bytes) (s : State),
    (exec (.decode1 b) s = .refused .noSync ↔ ∃ b0 rest, b = b0 :: rest ∧ b0 ≠ 0x55#8) ∧
    exec (.decode1 []) s = .next (s.answer (.verdict .incomplete))

/-- 42_frame_decode R114: fewer than six bytes are `Incomplete`, whatever they are. -/
def Obligations.Decode1ShortBufferIsIncomplete : Prop :=
  ∀ (rest : Bytes) (s : State), rest.length ≤ 4 →
    exec (.decode1 (0x55#8 :: rest)) s = .next (s.answer (.verdict .incomplete))

/-- 42_frame_decode R115: a header checksum that does not match is `Invalid`, whatever follows and however many bytes
follow. -/
def Obligations.Decode1BadHeaderIsInvalid : Prop :=
  ∀ (lh ll ol pt hc : Byte) (after : Bytes) (s : State), crc8 [lh, ll, ol, pt] ≠ hc →
    exec (.decode1 (0x55#8 :: lh :: ll :: ol :: pt :: hc :: after)) s = .next (s.answer (.verdict .invalid))

/-- 42_frame_decode R116: with a correct header checksum the answer is `Incomplete` exactly on fewer than `frame_len`
bytes, whatever they are; `frame_len` bytes are enough. The sum is on natural numbers, without wrap-around
(30_encoding R65). -/
def Obligations.Decode1UnfinishedFrameIsIncomplete : Prop :=
  ∀ (lh ll ol pt hc : Byte) (body : Bytes) (s : State), crc8 [lh, ll, ol, pt] = hc →
    (exec (.decode1 (0x55#8 :: lh :: ll :: ol :: pt :: hc :: body)) s = .next (s.answer (.verdict .incomplete)) ↔
      6 + body.length < 6 + (256 * lh.toNat + ll.toNat) + ol.toNat + 1)

/-- 42_frame_decode R117: with all of the frame there, a payload checksum that does not match is `Invalid`. -/
def Obligations.Decode1BadPayloadIsInvalid : Prop :=
  ∀ (lh ll ol pt hc pc8 : Byte) (data opt after : Bytes) (s : State), crc8 [lh, ll, ol, pt] = hc →
    data.length = 256 * lh.toNat + ll.toNat → opt.length = ol.toNat → crc8 (data ++ opt) ≠ pc8 →
    exec (.decode1 (0x55#8 :: lh :: ll :: ol :: pt :: hc :: (data ++ opt ++ pc8 :: after))) s =
      .next (s.answer (.verdict .invalid))

/-- 42_frame_decode R118 (success) and R120: both checksums right, the packet and `frame_len` come back, and what
follows the frame is ignored. -/
def Obligations.Decode1GoodFrameIsComplete : Prop :=
  ∀ (lh ll ol pt hc : Byte) (data opt after : Bytes) (s : State), crc8 [lh, ll, ol, pt] = hc →
    data.length = 256 * lh.toNat + ll.toNat → opt.length = ol.toNat →
    exec (.decode1 (0x55#8 :: lh :: ll :: ol :: pt :: hc :: (data ++ opt ++ crc8 (data ++ opt) :: after))) s =
      .next (s.answer (.verdict (.complete ⟨pt, data, opt⟩ (6 + data.length + opt.length + 1))))

/-- 42_frame_decode R121 (an inference of the spec): a verdict other than `Incomplete`, and the refusal, are never
withdrawn by later bytes. -/
def Obligations.Decode1VerdictsSurviveGrowth : Prop :=
  ∀ (b later : Bytes) (s : State),
    (∀ v : Verdict, v ≠ .incomplete → exec (.decode1 b) s = .next (s.answer (.verdict v)) →
      exec (.decode1 (b ++ later)) s = .next (s.answer (.verdict v))) ∧
    (exec (.decode1 b) s = .refused .noSync → exec (.decode1 (b ++ later)) s = .refused .noSync)

/-- 42_frame_decode R122 (an inference of the spec): an `Incomplete` buffer is empty or begins with 0x55 and holds at
most 65796 bytes, so with 65797 bytes there is always a verdict. -/
def Obligations.Decode1IncompleteIsBounded : Prop :=
  ∀ (b : Bytes) (s : State), exec (.decode1 b) s = .next (s.answer (.verdict .incomplete)) →
    b = [] ∨ (b.head? = some 0x55#8 ∧ b.length ≤ 65796)

/-- The prefix row: six bytes 55 L L O T H are `Incomplete` when H is the checksum of L L O T and `Invalid` when not
(30_encoding R60; 42_frame_decode R115, R116). That the row is performed as this judgement is the model's choice
(log 6). -/
def Obligations.FramePrefixIsJudgedByItsHeaderChecksum : Prop :=
  ∀ (dl : BitVec 16) (ol pt hc : Byte) (s : State),
    exec (.esp3FramePrefix dl ol pt hc) s = .next (s.answer (.verdict
      (if crc8 [BitVec.ofNat 8 (dl.toNat / 256), BitVec.ofNat 8 (dl.toNat % 256), ol, pt] = hc then .incomplete
       else .invalid)))

/-! ## FEED, DRAIN, RESET -/

/-- 43_stream_parser R125: FEED puts the chunk behind the bytes of `BUF`, every one of which stays at its offset, and
changes nothing else. It always completes. -/
def Obligations.FeedAppendsTheChunk : Prop :=
  ∀ (chunk : Bytes) (s : State),
    ∃ t : State, exec (.feed chunk) s = .next t ∧ t.result = some .done ∧ t.requests = s.requests ∧
      t.buf.length = s.buf.length + chunk.length ∧
      (∀ off, off < s.buf.length → t.buf.byteAt off = s.buf.byteAt off) ∧
      (∀ k, k < chunk.length → t.buf.byteAt (s.buf.length + k) = chunk[k]?)

/-- 43_stream_parser R143 (a decision of the spec, D6): in a machine given its parameters, FEED is refused as
`BufferOverflow` exactly when a finite `BUF_CAP` is exceeded by `len(BUF) + len(c)`; where the capacity holds the sum
FEED is the machine's. -/
def Obligations.FeedIsRefusedExactlyOnOverflow : Prop :=
  ∀ (params : Config) (chunk : Bytes) (s : State),
    (execWith params (.feed chunk) s = .refused .bufferOverflow ↔
      ∃ cap, params.bufCap = some cap ∧ cap < s.buf.length + chunk.length) ∧
    (params.Holds (s.buf.length + chunk.length) → execWith params (.feed chunk) s = exec (.feed chunk) s)

/-- 43_stream_parser R126 (an inference of the spec): two FEEDs in a row are one FEED of the concatenation, with
every capacity; an empty chunk that fits changes nothing. -/
def Obligations.ConsecutiveFeedsConcatenate : Prop :=
  ∀ (c1 c2 : Bytes) (s : State),
    runOps [.feed c1, .feed c2] s = runOps [.feed (c1 ++ c2)] s ∧
    exec (.feed []) s = .next (s.answer .done) ∧
    ∀ params : Config,
      runOpsWith params [.feed c1, .feed c2] s = runOpsWith params [.feed (c1 ++ c2)] s ∧
      (params.Holds s.buf.length → execWith params (.feed []) s = .next (s.answer .done))

/-- 43_stream_parser R128: no sync byte anywhere, the entire buffer is discarded and the round ends. -/
def Obligations.DrainDiscardsABufferWithoutSync : Prop :=
  ∀ s : State, Noise s.buf → exec .drain s = .next { s with buf := [], result := some (.packets []) }

/-- 43_stream_parser R129: the bytes before the first sync byte are discarded before the decode, so DRAIN does what
it does on the buffer without them; `Incomplete` then leaves `BUF` beginning with 0x55. -/
def Obligations.DrainDiscardsNoiseBeforeSync : Prop :=
  ∀ (s : State) (pre rest : Bytes), Noise pre → s.buf = pre ++ 0x55#8 :: rest →
    exec .drain s = exec .drain { s with buf := 0x55#8 :: rest } ∧
    (exec (.decode1 (0x55#8 :: rest)) s = .next (s.answer (.verdict .incomplete)) →
      exec .drain s = .next { s with buf := 0x55#8 :: rest, result := some (.packets []) })

/-- 43_stream_parser R130: on `Invalid` exactly the leading sync byte is dropped and DRAIN goes on with the rest. -/
def Obligations.DrainDropsOneByteOnInvalid : Prop :=
  ∀ (s : State) (rest : Bytes), s.buf = 0x55#8 :: rest →
    exec (.decode1 s.buf) s = .next (s.answer (.verdict .invalid)) →
    exec .drain s = exec .drain { s with buf := rest }

/-- 43_stream_parser R131: on `Incomplete` the round ends and `BUF` keeps every byte from the sync byte on. -/
def Obligations.DrainStopsOnIncomplete : Prop :=
  ∀ (s : State) (rest : Bytes), s.buf = 0x55#8 :: rest →
    exec (.decode1 s.buf) s = .next (s.answer (.verdict .incomplete)) →
    exec .drain s = .next (s.answer (.packets []))

/-- 43_stream_parser R132: on `Complete(p, n)` exactly `n` bytes are removed, `p` comes first in the result, and
DRAIN goes on with what is left. -/
def Obligations.DrainConsumesACompleteFrame : Prop :=
  ∀ (s : State) (p : Packet) (n : Nat),
    exec (.decode1 s.buf) s = .next (s.answer (.verdict (.complete p n))) →
    ∃ (ps : List Packet) (kept : Bytes),
      exec .drain { s with buf := s.buf.drop n } = .next { s with buf := kept, result := some (.packets ps) } ∧
      exec .drain s = .next { s with buf := kept, result := some (.packets (p :: ps)) }

/-- 43_stream_parser R134 and R135 (inferences of the spec): every DRAIN completes; afterwards `BUF` is empty, or
begins with 0x55, decodes as `Incomplete` and holds at most 65796 bytes; a second DRAIN returns nothing and leaves
`BUF` as it is. -/
def Obligations.DrainEndsEmptyOrWaiting : Prop :=
  ∀ s : State, ∃ (ps : List Packet) (kept : Bytes),
    exec .drain s = .next { s with buf := kept, result := some (.packets ps) } ∧
    (kept = [] ∨ (kept.head? = some 0x55#8 ∧ kept.length ≤ 65796 ∧
      exec (.decode1 kept) s = .next (s.answer (.verdict .incomplete)))) ∧
    exec .drain { s with buf := kept } = .next { s with buf := kept, result := some (.packets []) }

/-- 43_stream_parser R136 and R138, 20_memory R41: the buffer DRAIN found is, in order, discarded bytes and the frame
of each returned packet, alternately, then discarded bytes, then the buffer it left; nothing is duplicated, reordered
or altered, and a packet takes at least seven bytes (so with fewer than 7 * (k + 1) bytes at most `PKTS_MAX` = k). -/
def Obligations.DrainAccountsForEveryByte : Prop :=
  ∀ (s t : State) (ps : List Packet), exec .drain s = .next t → t.result = some (.packets ps) →
    (∃ (gaps : List Bytes) (last : Bytes), gaps.length = ps.length ∧
      (s.buf : Bytes) = streamOf (gaps.zip ps) ++ last ++ t.buf) ∧
    7 * ps.length + t.buf.length ≤ s.buf.length ∧
    ∀ (params : Config) (k : Nat), params.pktsMax = some k → s.buf.length < 7 * (k + 1) → params.AllowsPackets ps

/-- 70_reset_and_hazards R195: the host that uses DECODE1 by the rule's steps gets the packets that DRAIN returns and
keeps the bytes that DRAIN leaves, and DRAIN has no other outcome. -/
def Obligations.DrainIsTheHostsScanWithDecode1 : Prop :=
  ∀ (s : State) (ps : List Packet) (kept : Bytes),
    (HostScan s.buf ps kept ↔ exec .drain s = .next { s with buf := kept, result := some (.packets ps) })

/-- 43_stream_parser R137 (an inference of the spec): for every way of cutting a stream into chunks, and every placing
of further DRAINs, with a DRAIN at the end, the packets returned in all and the final `BUF` are those of one FEED of
the stream and one DRAIN. -/
def Obligations.PacketsDoNotDependOnChunking : Prop :=
  ∀ (ops : List Instr) (s : State), (∀ i ∈ ops, isFeedOrDrain i = true) →
    ∃ (t t' : State) (ps : List Packet),
      runOps (ops ++ [.drain]) s = some (t, ps) ∧
      runOps [.feed (fedBytes ops), .drain] s = some (t', ps) ∧ t'.buf = t.buf

/-- 43_stream_parser R142, row "clean stream": frames made by ENCODE with noise between them, fed in any chunks with
DRAINs anywhere and one at the end, give exactly those packets in order and leave `BUF` empty. "Incremental feeding"
and "Noise discard" are the cases of one frame. The buffer holds no 0x55 beforehand. -/
def Obligations.CleanStreamDeliversEveryPacket : Prop :=
  ∀ (items : List (Bytes × Packet)) (tail : Bytes) (ops : List Instr) (s : State),
    Noise s.buf → (∀ it ∈ items, Noise it.1 ∧ it.2.wf = true) → Noise tail →
    (∀ i ∈ ops, isFeedOrDrain i = true) → fedBytes ops = streamOf items ++ tail →
    ∃ t : State, runOps (ops ++ [.drain]) s = some (t, items.map Prod.snd) ∧ t.buf = []

/-- 43_stream_parser R142, row "Corruption recovery", with the condition the rule adds (90_conflicts C5): a valid
frame, a frame whose header checksum byte is changed and which holds no further 0x55, and a valid frame give exactly
the two valid packets. -/
def Obligations.CorruptedHeaderCostsOneFrame : Prop :=
  ∀ (p bad q : Packet) (hc : Byte) (s : State),
    Noise s.buf → p.wf = true → bad.wf = true → q.wf = true →
    (frameOfPacket bad)[5]? ≠ some hc → Noise (((frameOfPacket bad).set 5 hc).drop 1) →
    ∃ t : State,
      runOps [.feed (frameOfPacket p ++ (frameOfPacket bad).set 5 hc ++ frameOfPacket q), .drain] s = some (t, [p, q]) ∧
      t.buf = []

/-- 70_reset_and_hazards R193 (an inference of the spec): while a header with a correct checksum waits for its bytes,
DRAIN returns nothing and keeps everything, the whole frames behind it included. -/
def Obligations.FalseHeaderHoldsBackWholeFrames : Prop :=
  ∀ (lh ll ol pt : Byte) (pre post : Bytes) (q : Packet) (s : State),
    q.wf = true →
    s.buf = 0x55#8 :: lh :: ll :: ol :: pt :: crc8 [lh, ll, ol, pt] :: (pre ++ frameOfPacket q ++ post) →
    pre.length + (frameOfPacket q).length + post.length ≤ 256 * lh.toNat + ll.toNat + ol.toNat →
    exec .drain s = .next (s.answer (.packets []))

/-- 43_stream_parser R140 (a decision of the spec, D8) and 70_reset_and_hazards R186: RESET empties `BUF` and a DRAIN
after it returns nothing. That it leaves the other fields alone is the model's choice (log 19). -/
def Obligations.ResetEmptiesTheBuffer : Prop :=
  ∀ s : State,
    exec .reset s = .next { s with buf := [], result := some .done } ∧
    runOps [.reset, .drain] s = some ({ s with buf := [], result := some (.packets []) }, [])

/-- 00_scope R10 with 20_memory R54 and 92_eei_decisions D6: the receive loop is never refused and never leaves more
than 65796 bytes; a machine given a finite capacity of at least 65796 + m bytes runs it, on chunks within `CHUNK_MAX` =
m, to the same end. The premises on the parameters are the host's contract (log 10). -/
def Obligations.ReceiveLoopIsNeverRefused : Prop :=
  ∀ (chunks : List Bytes) (s : State), s.buf.length ≤ 65796 →
    ∃ (t : State) (ps : List Packet), runOps (receiveLoop chunks) s = some (t, ps) ∧ t.buf.length ≤ 65796 ∧
      ∀ (params : Config) (m : Nat), params.chunkMax = some m → (∀ chunk ∈ chunks, params.AllowsChunk chunk) →
        params.Holds (65796 + m) → runOpsWith params (receiveLoop chunks) s = some (t, ps)

/-! ## RORG, SENDERID, STATUS -/

/-- 44_packet_fields R150: the first byte of `data` when the packet type is 1 and `data` is non-empty, else absent. -/
def Obligations.RorgIsTheFirstErp1Byte : Prop :=
  ∀ (p : Packet) (s : State),
    (∀ (b : Byte) (rest : Bytes), p.packetType = 0x01#8 → p.data = b :: rest →
      exec (.rorg p) s = .next (s.answer (.field (some b)))) ∧
    (p.packetType ≠ 0x01#8 ∨ p.data = [] → exec (.rorg p) s = .next (s.answer (.field none)))

/-- 44_packet_fields R151: the four bytes before the last when the packet type is 1 and `data` has at least six bytes,
else absent. -/
def Obligations.SenderIdIsTheFourBytesBeforeTheStatus : Prop :=
  ∀ (p : Packet) (s : State),
    (∀ (pre : Bytes) (b0 b1 b2 b3 st : Byte), p.packetType = 0x01#8 → pre ≠ [] →
      p.data = pre ++ [b0, b1, b2, b3, st] →
      exec (.senderid p) s = .next (s.answer (.senderId (some [b0, b1, b2, b3])))) ∧
    (p.packetType ≠ 0x01#8 ∨ p.data.length < 6 → exec (.senderid p) s = .next (s.answer (.senderId none)))

/-- 44_packet_fields R152: the last byte of `data` when the packet type is 1 and `data` is non-empty, else absent. -/
def Obligations.StatusIsTheLastErp1Byte : Prop :=
  ∀ (p : Packet) (s : State),
    (∀ (pre : Bytes) (b : Byte), p.packetType = 0x01#8 → p.data = pre ++ [b] →
      exec (.status p) s = .next (s.answer (.field (some b)))) ∧
    (p.packetType ≠ 0x01#8 ∨ p.data = [] → exec (.status p) s = .next (s.answer (.field none)))

/-- 44_packet_fields R154: the source's example, for every payload, the empty one included. -/
def Obligations.Erp1ExampleHoldsForEveryPayload : Prop :=
  ∀ (payload opt : Bytes) (s : State) (p : Packet),
    p = ⟨0x01#8, 0xF6#8 :: (payload ++ [0x01#8, 0x02#8, 0x03#8, 0x04#8, 0x30#8]), opt⟩ →
    exec (.rorg p) s = .next (s.answer (.field (some 0xF6#8))) ∧
    exec (.senderid p) s = .next (s.answer (.senderId (some [0x01#8, 0x02#8, 0x03#8, 0x04#8]))) ∧
    senderIdText p = some ['0', '1', '0', '2', '0', '3', '0', '4'] ∧
    exec (.status p) s = .next (s.answer (.field (some 0x30#8)))

/-- 44_packet_fields R153 and 20_memory R45: the rendering has eight upper-case hexadecimal characters, the number is
the four bytes with the first most significant, and either of them tells the sender id. -/
def Obligations.SenderIdRenderingsCarryTheSameInformation : Prop :=
  ∀ (p q : Packet) (bs bs' : Bytes), senderIdOf p = some bs → senderIdOf q = some bs' →
    (∃ text, senderIdText p = some text ∧ text.length = 8 ∧
      ∀ ch ∈ text, ch ∈ ['0', '1', '2', '3', '4', '5', '6', '7', '8', '9', 'A', 'B', 'C', 'D', 'E', 'F']) ∧
    (∃ b0 b1 b2 b3 : Byte, bs = [b0, b1, b2, b3] ∧
      senderIdNumber p = some (b0.toNat * 2 ^ 24 + b1.toNat * 2 ^ 16 + b2.toNat * 2 ^ 8 + b3.toNat)) ∧
    (senderIdText p = senderIdText q → bs = bs') ∧ (senderIdNumber p = senderIdNumber q → bs = bs')

/-! ## The whole machine -/

/-- 20_memory R51, 40_crc8 R96, 41_frame_encode R103, 42_frame_decode R119, 44_packet_fields R156: the operations
other than FEED, DRAIN and RESET answer from their operands alone, whatever the state, and change nothing. -/
def Obligations.PureOperationsAnswerFromOperandsAlone : Prop :=
  ∀ i : Instr, isFeedOrDrain i = false → i ≠ .reset →
    (∃ r : Result, ∀ s : State, exec i s = .next (s.answer r)) ∨
    (∃ x : Refusal, ∀ s : State, exec i s = .refused x)

/-- 10_state R20, 20_memory R40: the frame of every operation. Only FEED, DRAIN and RESET write `BUF`, and after any
other operation every offset reads as before. The pending requests, which every operation leaves as they are, are no
state of the spec: the list is the model's (log 2), and that RESET leaves it alone is the model's choice (log 19). -/
def Obligations.OnlyParserOperationsWriteTheBuffer : Prop :=
  ∀ (i : Instr) (s t : State), exec i s = .next t →
    t.requests = s.requests ∧
    (isFeedOrDrain i = false → i ≠ .reset →
      t.buf.length = s.buf.length ∧ ∀ off, t.buf.byteAt off = s.buf.byteAt off)

/-- 10_state R20 and R30: `BUF` is read by DRAIN alone, so what any other operation answers does not tell one buffer
from another (in a machine given a finite capacity FEED's refusal tells its length: `ParametersBearOnFeedAlone`). -/
def Obligations.OnlyDrainReadsTheBuffer : Prop :=
  ∀ (i : Instr) (s : State) (m : Bytes), i ≠ .drain →
    (∀ t, exec i s = .next t → ∃ t', exec i { s with buf := m } = .next t' ∧ t'.result = t.result) ∧
    (∀ x, exec i s = .refused x → exec i { s with buf := m } = .refused x)

/-- 60_exceptions R160: the operations that do not complete are DECODE1 without a sync byte in front and, in a machine
given a finite capacity, FEED beyond it, and no other; `EncodingError` is a completed operation (log 7), the others are
refused (log 8). -/
def Obligations.OperationsStopOnlyAsListed : Prop :=
  ∀ (i : Instr) (s : State),
    ((¬ ∃ t, exec i s = .next t) ↔ ∃ (b0 : Byte) (rest : Bytes), i = .decode1 (b0 :: rest) ∧ b0 ≠ 0x55#8) ∧
    ∀ params : Config, ((¬ ∃ t, execWith params i s = .next t) ↔
      (∃ (b0 : Byte) (rest : Bytes), i = .decode1 (b0 :: rest) ∧ b0 ≠ 0x55#8) ∨
      (∃ (chunk : Bytes) (cap : Nat), i = .feed chunk ∧ params.bufCap = some cap ∧
        cap < s.buf.length + chunk.length))

/-- When a step has no next state: exactly when the first pending request names no operation, or names one that
60_exceptions R160 has refused (DECODE1 without a sync byte; in a machine given a finite capacity, FEED beyond it). Of the
requests that name no operation R160 has only the unused select codes; that a malformed request is refused is the model's
choice (log 12), that a field view of no Packet is refused is its inference (log 11). The list of requests is the model's
(log 2), its bytes too (log 1); that the endings of R160 are refusals is log 8. -/
def Obligations.StepsStopOnlyAsListed : Prop :=
  ∀ s : State,
    (¬ Safe s ↔ ∃ (request : Bytes) (rest : List Bytes), s.requests = request :: rest ∧
      ((∃ e, decode request = .error e) ∨
        (∃ (b0 : Byte) (bs : Bytes), decode request = .ok (.decode1 (b0 :: bs)) ∧ b0 ≠ 0x55#8))) ∧
    ∀ params : Config, ((¬ ∃ t, stepWith params s = .next t) ↔
      ∃ (request : Bytes) (rest : List Bytes), s.requests = request :: rest ∧
        ((∃ e, decode request = .error e) ∨
          (∃ (b0 : Byte) (bs : Bytes), decode request = .ok (.decode1 (b0 :: bs)) ∧ b0 ≠ 0x55#8) ∨
          (∃ (chunk : Bytes) (cap : Nat), decode request = .ok (.feed chunk) ∧ params.bufCap = some cap ∧
            cap < s.buf.length + chunk.length)))

/-- 30_encoding R76 and 60_exceptions R160 (a decision of the spec, D10): the status numbers of the abnormal endings,
and 0 for every other completed operation. -/
def Obligations.EndingsCarryTheirStatusNumbers : Prop :=
  ∀ s : State,
    (∀ (pt : Byte) (data opt : Bytes), 65536 ≤ data.length ∨ 256 ≤ opt.length →
      outcomeStatus (exec (.encode pt data opt) s) = some 1) ∧
    (∀ (b0 : Byte) (rest : Bytes), b0 ≠ 0x55#8 → outcomeStatus (exec (.decode1 (b0 :: rest)) s) = some 2) ∧
    (∀ (params : Config) (chunk : Bytes) (cap : Nat), params.bufCap = some cap →
      cap < s.buf.length + chunk.length → outcomeStatus (execWith params (.feed chunk) s) = some 3) ∧
    (∀ (i : Instr) (t : State), exec i s = .next t → t.result ≠ some .encodingError →
      outcomeStatus (exec i s) = some 0)

/-- 20_memory R55: a step takes the first request and no other, in the machine and in one given any parameters. The list
of requests is the model's (log 2), and that RESET drops none is the model's choice (log 19). -/
def Obligations.StepTakesOneRequest : Prop :=
  ∀ s t : State,
    (step s = .next t → t.requests = s.requests.tail) ∧
    ∀ params : Config, stepWith params s = .next t → t.requests = s.requests.tail

/-- 00_scope R5, 10_state R27 and R31, 43_stream_parser R143: the open parameters are arguments and no state. At the
defaults they give the machine itself (log 9); at other values an operation, and a step, does what the machine's does, but
for the one FEED that R143 refuses. That CHUNK_MAX and PKTS_MAX change no operation is the model's choice (log 10); the
list of requests is the model's (log 2). -/
def Obligations.ParametersBearOnFeedAlone : Prop :=
  coreWith Config.default = core ∧
  ∀ (params : Config) (s : State),
    (∀ i : Instr, execWith params i s = exec i s ∨
      ∃ (chunk : Bytes) (cap : Nat), i = .feed chunk ∧ params.bufCap = some cap ∧
        cap < s.buf.length + chunk.length ∧ execWith params i s = .refused .bufferOverflow) ∧
    (stepWith params s = step s ∨
      ∃ (request : Bytes) (rest : List Bytes) (chunk : Bytes) (cap : Nat),
        s.requests = request :: rest ∧ decode request = .ok (.feed chunk) ∧ params.bufCap = some cap ∧ cap < s.buf.length + chunk.length ∧
        stepWith params s = .refused .bufferOverflow)

/-- From every state within the invariant a step leads to a state within it, in the machine and in one given any
parameters: the buffer within its capacity (20_memory R54), and the result one that the spec allows (10_state R22, 30_encoding R61, 41_frame_encode R102,
42_frame_decode R118, 44_packet_fields R151). -/
def Obligations.StepKeepsTheStateInvariant : Prop :=
  ∀ s t : State,
    (s.Inv → step s = .next t → t.Inv) ∧
    ∀ params : Config, s.InvWith params → stepWith params s = .next t → t.InvWith params

/-- 10_state R21 and 70_reset_and_hazards R185, R186: after reset `BUF` is empty, the invariant holds with every value of
the parameters, and a DRAIN returns nothing and leaves `BUF` empty. The values of the environment's fields are the model's
(log 16). -/
def Obligations.ResetStateIsEmptyAndInvariant : Prop :=
  State.reset.buf = [] ∧ State.reset.Inv ∧ (∀ params : Config, State.reset.InvWith params) ∧
  ∃ t : State, exec .drain State.reset = .next t ∧ t.result = some (.packets []) ∧ t.buf = []
end

