-- ==== Sys2Proof/Laws/Crc8.lean ====
section
/-! SUPPORT. The checksum's defining equations in the form that proofs use. -/

namespace Sys2Proof.Machine

/-- The step depends on the exclusive or of its operands alone (40_crc8 R90). -/
theorem crc8Step_eq_xor (acc b : Byte) : crc8Step acc b = crc8Step 0x00#8 (acc ^^^ b) := by simp [crc8Step]

/-- The round is one shift of the whole register with the polynomial fed back. -/
theorem crc8Round_eq (a : Byte) : crc8Round a = (a <<< 1) ^^^ (if a.msb then Config.poly else 0x00#8) := by
  unfold crc8Round
  split <;> simp

@[simp] theorem crc8_nil : crc8 [] = 0x00#8 := rfl

/-- The accumulator goes on through the bytes that follow (40_crc8 R91). -/
theorem crc8_append (bs ts : Bytes) : crc8 (bs ++ ts) = ts.foldl crc8Step (crc8 bs) := List.foldl_append

theorem crc8_concat (bs : Bytes) (b : Byte) : crc8 (bs ++ [b]) = crc8Step (crc8 bs) b := by simp [crc8_append]

end Sys2Proof.Machine
end

