-- ==== Sys2Proof/Laws/Decode.lean ====
section
/-! SUPPORT. What the readers of the link format answer on what the writers write. -/

namespace Sys2Proof

/-- A byte sequence is read back, with whatever follows it. -/
theorem takeSeq_putSeq_append (bs rest : Bytes) : takeSeq (putSeq bs ++ rest) = some (bs, rest) := by
  induction bs with
  | nil => cases rest <;> simp [putSeq, takeSeq]
  | cons b bs ih => simp [putSeq, takeSeq, ih]

/-- What is read was written so. -/
theorem takeSeq_eq_some {bs : Bytes} {s rest : Bytes} (h : takeSeq bs = some (s, rest)) : bs = putSeq s ++ rest := by
  induction bs using takeSeq.induct generalizing s rest with
  | case1 => simp [takeSeq] at h
  | case2 => simp_all [takeSeq, putSeq]
  | case3 => simp_all [takeSeq]
  | case4 => simp_all [takeSeq, putSeq]
  | case5 b tail _ ih =>
    cases hs : takeSeq tail with
    | none => simp [takeSeq, hs] at h
    | some r =>
      obtain ⟨rfl, rfl⟩ : b :: r.1 = s ∧ r.2 = rest := by simpa [takeSeq, hs] using h
      simp [putSeq, ih hs]
  | case6 => simp_all [takeSeq]

/-- The code of an operation selects it. -/
theorem opOfCode_code (op : Op) : opOfCode op.code = some op := by cases op <;> rfl

/-- Only its own code selects an operation. -/
theorem opOfCode_eq_some {code : BitVec 4} {op : Op} (h : opOfCode code = some op) : code = op.code := by
  revert h
  revert op code
  decide +kernel

end Sys2Proof
end

