-- ==== Sys2Proof/Laws/Operands.lean ====
section
/-! SUPPORT. What the functions of Machine/Operands.lean answer. -/

namespace Sys2Proof.Machine

theorem find_eq_none_iff (v : Byte) (bs : Bytes) : find v bs = none ↔ v ∉ bs := by
  induction bs with
  | nil => simp [find]
  | cons b bs ih =>
    by_cases h : b = v
    · simp [find, h]
    · simp [find, h, ih, Ne.symm h]

/-- The least offset: the byte stands there and nowhere before. -/
theorem find_eq_some_iff (v : Byte) (bs : Bytes) (i : Nat) :
    find v bs = some i ↔ ∃ rest, bs.drop i = v :: rest ∧ v ∉ bs.take i ∧ i < bs.length := by
  induction bs generalizing i with
  | nil => simp [find]
  | cons b bs ih =>
    by_cases h : b = v
    · subst h
      cases i <;> simp [find]
    · cases i with
      | zero => simp [find, h]
      | succ i => simp [find, h, ih, Ne.symm h]

/-- Bytes without `v` in front only shift where it is found. -/
theorem find_append_of_not_mem (v : Byte) (pre bs : Bytes) (h : v ∉ pre) :
    find v (pre ++ bs) = (find v bs).map (· + pre.length) := by
  induction pre with
  | nil => simp
  | cons b pre ih =>
    simp only [List.mem_cons, not_or] at h
    simp [find, Ne.symm h.1, ih h.2, Function.comp_def, Nat.add_assoc]

@[simp] theorem find_cons_self (v : Byte) (bs : Bytes) : find v (v :: bs) = some 0 := by simp [find]

@[simp] theorem slice_zero (s : Bytes) (j : Nat) : slice s 0 j = s.take j := by simp [slice]

theorem slice_add (s : Bytes) (i n : Nat) : slice s i (i + n) = (s.drop i).take n := by simp [slice]

/-- The data length is its two bytes, high byte first (20_memory R43). -/
theorem dataLength_toNat (high low : Byte) : (dataLength high low).toNat = 256 * high.toNat + low.toNat := by
  have h := high.isLt
  have l := low.isLt
  have hh : high.toNat <<< 8 < 65536 := by rw [Nat.shiftLeft_eq]; omega
  simp only [dataLength, BitVec.toNat_or, BitVec.toNat_shiftLeft, BitVec.toNat_setWidth,
    Nat.mod_eq_of_lt (show high.toNat < 2 ^ 16 by omega), Nat.mod_eq_of_lt (show low.toNat < 2 ^ 16 by omega),
    Nat.mod_eq_of_lt (show high.toNat <<< 8 < 2 ^ 16 from hh)]
  rw [← Nat.shiftLeft_add_eq_or_of_lt l, Nat.shiftLeft_eq]
  omega

theorem dataLength_high_low (dl : BitVec 16) : dataLength (highByte dl) (lowByte dl) = dl := by
  apply BitVec.eq_of_toNat_eq
  rw [dataLength_toNat]
  simp only [highByte, lowByte, BitVec.extractLsb'_toNat, Nat.shiftRight_eq_div_pow]
  have := dl.isLt
  omega

theorem highByte_toNat (dl : BitVec 16) : (highByte dl).toNat = dl.toNat / 256 := by
  have := dl.isLt
  simp only [highByte, BitVec.extractLsb'_toNat, Nat.shiftRight_eq_div_pow]
  omega

theorem lowByte_toNat (dl : BitVec 16) : (lowByte dl).toNat = dl.toNat % 256 := by
  simp [lowByte, BitVec.extractLsb'_toNat]

theorem frameLength_bounds (dl : BitVec 16) (ol : Byte) : 7 ≤ frameLength dl ol ∧ frameLength dl ol ≤ 65797 := by
  have := dl.isLt
  have := ol.isLt
  simp only [frameLength]
  omega

@[simp] theorem hex2_length (b : Byte) : (hex2 b).length = 2 := rfl

theorem hex_length (s : Bytes) : (hex s).length = 2 * s.length := by
  induction s with
  | nil => rfl
  | cons b s ih => simp [hex] at *; omega

end Sys2Proof.Machine
end

