-- ==== Sys2Proof/Laws/Fields.lean ====
section
/-! SUPPORT. What the field views answer (spec/44_packet_fields.md). -/

namespace Sys2Proof.Machine

/-- Other packet types have no derived field (44_packet_fields R155). -/
theorem fields_of_other_type {p : Packet} (h : p.packetType ≠ Config.ptErp1) :
    rorgOf p = none ∧ senderIdOf p = none ∧ statusOf p = none := by
  simp [rorgOf, senderIdOf, statusOf, h]

/-- A sender id has four bytes (44_packet_fields R151). -/
theorem senderIdOf_length {p : Packet} {bs : Bytes} (h : senderIdOf p = some bs) : bs.length = 4 := by
  unfold senderIdOf at h
  split at h
  · rename_i hp
    simp only [Option.some.injEq] at h
    subst h
    simp only [slice, List.length_take, List.length_drop]
    omega
  · simp at h

end Sys2Proof.Machine
end

