-- ==== Sys2Proof/Laws/State.lean ====
section
/-! SUPPORT. One lemma per field per update of the state. -/

namespace Sys2Proof.Machine

@[simp] theorem State.answer_buf (s : State) (r : Result) : (s.answer r).buf = s.buf := rfl
@[simp] theorem State.answer_requests (s : State) (r : Result) : (s.answer r).requests = s.requests := rfl
@[simp] theorem State.answer_result (s : State) (r : Result) : (s.answer r).result = some r := rfl

@[simp] theorem State.setBuf_buf (s : State) (m : Memory) : (s.setBuf m).buf = m := rfl
@[simp] theorem State.setBuf_requests (s : State) (m : Memory) : (s.setBuf m).requests = s.requests := rfl
@[simp] theorem State.setBuf_result (s : State) (m : Memory) : (s.setBuf m).result = s.result := rfl

@[simp] theorem State.reset_buf : State.reset.buf = [] := rfl
@[simp] theorem State.reset_requests : State.reset.requests = [] := rfl
@[simp] theorem State.reset_result : State.reset.result = none := rfl

@[simp] theorem State.withFetchWord_buf (s : State) (n w : Nat) : (s.withFetchWord n w).buf = s.buf := rfl
@[simp] theorem State.withFetchWord_requests (s : State) (n w : Nat) :
    (s.withFetchWord n w).requests = tableRequest n w :: s.requests := rfl
@[simp] theorem State.withFetchWord_result (s : State) (n w : Nat) : (s.withFetchWord n w).result = s.result := rfl

/-- Handing back a result leaves the block itself as it was; writing `BUF` leaves the environment as it was. -/
@[simp] theorem State.answer_toBlock (s : State) (r : Result) : (s.answer r).toBlock = s.toBlock := rfl
@[simp] theorem State.setBuf_toEnvironment (s : State) (m : Memory) :
    (s.setBuf m).toEnvironment = s.toEnvironment := rfl

/-- The buffer a state is given last is the one it has. -/
@[simp] theorem State.setBuf_setBuf (s : State) (m m' : Memory) : (s.setBuf m).setBuf m' = s.setBuf m' := rfl

/-- The result a state is given last is the one it has. -/
@[simp] theorem State.answer_answer (s : State) (r r' : Result) : (s.answer r).answer r' = s.answer r' := rfl

end Sys2Proof.Machine
end

