-- ==== Sys2Proof/Laws/Memory.lean ====
section
/-! SUPPORT. The accesses to `BUF` (spec/20_memory.md R40): what each byte reads as after them, and that they keep
the storage within its capacity. -/

namespace Sys2Proof.Machine

@[simp] theorem Memory.append_eq (m : Memory) (c : Bytes) : m.append c = (m : Bytes) ++ c := rfl
@[simp] theorem Memory.dropFront_eq (m : Memory) (n : Nat) : m.dropFront n = List.drop n m := rfl
@[simp] theorem Memory.clear_eq (m : Memory) : m.clear = [] := rfl

/-- Clearing is dropping all of it from the front (00_scope section 6.3). -/
theorem Memory.clear_eq_dropFront (m : Memory) : m.clear = m.dropFront m.length := by simp

/-- Appending leaves every byte where it was and puts the chunk behind them. -/
theorem Memory.byteAt_append (m : Memory) (chunk : Bytes) (off : Nat) :
    (m.append chunk).byteAt off = if off < m.length then m.byteAt off else chunk[off - m.length]? := by
  simp [Memory.byteAt, List.getElem?_append]

/-- Dropping from the front renumbers the bytes (10_state R29). -/
theorem Memory.byteAt_dropFront (m : Memory) (n off : Nat) : (m.dropFront n).byteAt off = m.byteAt (n + off) := by
  simp [Memory.byteAt]

/-- Two buffers that read alike at every offset are equal. -/
theorem Memory.eq_of_byteAt (m m' : Memory) (h : ∀ off, m.byteAt off = m'.byteAt off) : m = m' :=
  List.ext_getElem? h

theorem Memory.wf_iff (cap : Option Nat) (m : Memory) : Memory.wf cap m = true ↔ ∀ n, cap = some n → m.length ≤ n := by
  cases cap <;> simp [Memory.wf]

/-- A shorter buffer stays within the capacity. -/
theorem Memory.wf_of_length_le {cap : Option Nat} {m m' : Memory} (h : m'.length ≤ m.length)
    (hm : Memory.wf cap m = true) : Memory.wf cap m' = true := by
  rw [Memory.wf_iff] at *
  exact fun n hn => h.trans (hm n hn)

theorem Memory.wf_dropFront {cap : Option Nat} {m : Memory} (n : Nat) (h : Memory.wf cap m = true) :
    Memory.wf cap (m.dropFront n) = true :=
  Memory.wf_of_length_le (by simp) h

theorem Memory.wf_clear (cap : Option Nat) (m : Memory) : Memory.wf cap m.clear = true := by
  rw [Memory.wf_iff]; simp

theorem fits_iff (cap : Option Nat) (buf c : Bytes) :
    fits cap buf c = true ↔ ∀ n, cap = some n → buf.length + c.length ≤ n := by
  cases cap <;> simp [fits]

/-- A chunk that fits keeps the buffer within its capacity. -/
theorem Memory.wf_append {cap : Option Nat} {m : Memory} {c : Bytes} (h : fits cap m c = true) :
    Memory.wf cap (m.append c) = true := by
  rw [fits_iff] at h
  rw [Memory.wf_iff]
  simpa using h

theorem Memory.wf_reset (cap : Option Nat) : Memory.wf cap State.reset.buf = true := Memory.wf_clear cap []

end Sys2Proof.Machine
end

