-- ==== Sys2Proof/Laws/Ops.lean ====
section
/-! SUPPORT. Everything the shared operations of Machine/Ops.lean can do. -/

namespace Sys2Proof.Machine

/-- A normal ending: the result, and nothing else, is new. -/
theorem finish_eq_next_iff (r : Result) (s t : State) : finish r s = .next t ↔ t = s.answer r := by
  simp only [finish, Host.Outcome.next.injEq]
  exact eq_comm

theorem finish_ne_refused (r : Result) (s : State) (x : Refusal) : finish r s ≠ .refused x := by simp [finish]

/-- An abnormal ending is the error result, or the refusal of the same name. -/
theorem raise_cases (e : Abnormal) (s : State) :
    (e = .encodingError ∧ raise e s = .next (s.answer .encodingError)) ∨
    (e = .noSync ∧ raise e s = .refused .noSync) ∨
    (e = .bufferOverflow ∧ raise e s = .refused .bufferOverflow) ∨
    (e = .illegalOp ∧ raise e s = .refused .illegalOp) := by
  cases e <;> simp [raise]

/-- An abnormal ending that gives a next state leaves everything but the result as it was (60_exceptions R170). -/
theorem raise_next {e : Abnormal} {s t : State} (h : raise e s = .next t) :
    e = .encodingError ∧ t = s.answer .encodingError := by
  cases e <;> simp_all [raise]

/-- An operation without state effect answers with its result or with the error result. -/
theorem conclude_next {r : Except Abnormal Result} {s t : State} (h : conclude r s = .next t) :
    ∃ x, t = s.answer x ∧ (r = .ok x ∨ r = .error .encodingError ∧ x = .encodingError) := by
  cases r with
  | ok x => exact ⟨x, (finish_eq_next_iff x s t).1 h, .inl rfl⟩
  | error e =>
    obtain ⟨rfl, rfl⟩ := raise_next (show raise e s = .next t from h)
    exact ⟨_, rfl, .inr ⟨rfl, rfl⟩⟩

/-- `fetch` finds nothing, an operation, or a request that names none. -/
theorem fetch_cases (s : State) :
    (s.requests = [] ∧ fetch s = .idle) ∨
    (∃ q rest, s.requests = q :: rest ∧
      ((∃ i, decode q = .ok i ∧ fetch s = .operation i { s with requests := rest }) ∨
        (∃ e, decode q = .error e ∧ fetch s = .rejected e))) := by
  unfold fetch
  cases h : s.requests with
  | nil => simp
  | cons q rest =>
    refine .inr ⟨q, rest, rfl, ?_⟩
    cases hd : decode q with
    | ok i => exact .inl ⟨i, rfl, by simp only [hd]⟩
    | error e => exact .inr ⟨e, rfl, by simp only [hd]⟩

end Sys2Proof.Machine
end

