-- ==== Sys2Proof/Laws/Frame.lean ====
section
/-! SUPPORT. What the encoder and the decode step answer. -/

namespace Sys2Proof.Machine

/-- A frame, byte by byte (30_encoding R60). -/
theorem frameOf_eq_cons (pt : Byte) (data opt : Bytes) :
    frameOf pt data opt =
      Config.sync :: highByte (BitVec.ofNat 16 data.length) :: lowByte (BitVec.ofNat 16 data.length) ::
        BitVec.ofNat 8 opt.length :: pt ::
        crc8 (headerBytes (BitVec.ofNat 16 data.length) (BitVec.ofNat 8 opt.length) pt) ::
        (data ++ opt ++ [crc8 (data ++ opt)]) := by
  simp [frameOf, headerBytes]

/-- The length formula of 30_encoding R61. -/
theorem frameOf_length (pt : Byte) (data opt : Bytes) :
    (frameOf pt data opt).length = 6 + data.length + opt.length + 1 := by
  simp [frameOf_eq_cons]
  omega

/-- `ENCODE`'s function answers the frame or the one error. -/
theorem encodeFrame_cases (pt : Byte) (data opt : Bytes) :
    (data.length ≤ 65535 ∧ opt.length ≤ 255 ∧ encodeFrame pt data opt = .ok (frameOf pt data opt)) ∨
    ((65535 < data.length ∨ 255 < opt.length) ∧ encodeFrame pt data opt = .error .encodingError) := by
  unfold encodeFrame
  split
  · exact .inr ⟨by assumption, rfl⟩
  · exact .inl ⟨by simp_all, by simp_all, rfl⟩

@[simp] theorem decode1_nil : decode1 [] = .ok .incomplete := rfl

theorem decode1_of_ne_sync {b0 : Byte} (rest : Bytes) (h : b0 ≠ Config.sync) : decode1 (b0 :: rest) = .error .noSync := by
  simp [decode1, h]

/-- Fewer than six bytes (42_frame_decode R114). -/
theorem decode1_short {rest : Bytes} (h : rest.length < 5) : decode1 (Config.sync :: rest) = .ok .incomplete := by
  match rest, h with
  | [], _ | [_], _ | [_, _], _ | [_, _, _], _ | [_, _, _, _], _ => rfl
  | _ :: _ :: _ :: _ :: _ :: _, h => simp at h; omega

/-- Six bytes and more (42_frame_decode R115 to R118). -/
theorem decode1_prefix (lh ll ol pt hc : Byte) (body : Bytes) :
    decode1 (Config.sync :: lh :: ll :: ol :: pt :: hc :: body) =
      .ok (decodeBody (body.length + 6) lh ll ol pt hc body) := rfl

/-- The only error is `NoSync`, on a first byte that is not the sync byte. -/
theorem decode1_error {b : Bytes} {e : Abnormal} (h : decode1 b = .error e) :
    e = .noSync ∧ ∃ b0 rest, b = b0 :: rest ∧ b0 ≠ Config.sync := by
  unfold decode1 at h
  split at h
  · simp at h
  · split at h
    · exact ⟨by simp_all, _, _, rfl, by assumption⟩
    · split at h <;> simp at h

/-- The frame length as a number of bytes. -/
theorem frameLength_eq (lh ll ol : Byte) :
    frameLength (dataLength lh ll) ol = 7 + (256 * lh.toNat + ll.toNat) + ol.toNat := by
  rw [frameLength, dataLength_toNat]
  omega

/-- Everything a `Complete` says of the buffer (42_frame_decode R118). -/
theorem decode1_complete {b : Bytes} {p : Packet} {n : Nat} (h : decode1 b = .ok (.complete p n)) :
    ∃ lh ll ol hc body, b = Config.sync :: lh :: ll :: ol :: p.packetType :: hc :: body ∧
      crc8 [lh, ll, ol, p.packetType] = hc ∧ n = frameLength (dataLength lh ll) ol ∧ n ≤ b.length ∧
      p.data = body.take (dataLength lh ll).toNat ∧ p.opt = (body.drop (dataLength lh ll).toNat).take ol.toNat ∧
      body.getD ((dataLength lh ll).toNat + ol.toNat) 0x00#8 = crc8 (p.data ++ p.opt) := by
  match b, h with
  | [], h => simp at h
  | b0 :: rest, h =>
    by_cases hs : b0 = Config.sync
    · subst hs
      match rest, h with
      | [], h | [_], h | [_, _], h | [_, _, _], h | [_, _, _, _], h => simp [decode1] at h
      | lh :: ll :: ol :: pt :: hc :: body, h =>
        rw [decode1_prefix, Except.ok.injEq] at h
        unfold decodeBody at h
        split at h
        · simp at h
        · rename_i hcrc
          simp only [slice_zero, slice_add] at h
          split at h
          · simp at h
          · rename_i hlen
            split at h
            · simp at h
            · rename_i hpc
              simp only [Verdict.complete.injEq] at h
              obtain ⟨rfl, rfl⟩ := h
              simp only [ne_eq, not_not] at hcrc hpc
              exact ⟨lh, ll, ol, hc, body, rfl, hcrc, rfl, by simp at hlen ⊢; omega, rfl, rfl, hpc.symm⟩
    · rw [decode1_of_ne_sync rest hs] at h
      simp at h

/-- A frame is at least seven bytes and all there. -/
theorem decode1_complete_length {b : Bytes} {p : Packet} {n : Nat} (h : decode1 b = .ok (.complete p n)) :
    7 ≤ n ∧ n ≤ 65797 ∧ n ≤ b.length := by
  obtain ⟨lh, ll, ol, hc, body, -, -, hn, hle, -⟩ := decode1_complete h
  have := frameLength_bounds (dataLength lh ll) ol
  exact ⟨by omega, by omega, hle⟩

/-- With the sync byte in front the decode step always has a verdict (43_stream_parser R127). -/
theorem decode1_sync (rest : Bytes) : ∃ v, decode1 (Config.sync :: rest) = .ok v := by
  cases h : decode1 (Config.sync :: rest) with
  | ok v => exact ⟨v, rfl⟩
  | error e =>
    obtain ⟨-, b0, rest', heq, hne⟩ := decode1_error h
    simp at heq
    exact absurd heq.1.symm hne

end Sys2Proof.Machine
end

