-- ==== Sys2Proof/Laws/Parser.lean ====
section
/-! SUPPORT. DRAIN's loop without its bound: one equation for one pass (spec/43_stream_parser.md R127). -/

namespace Sys2Proof.Machine

/-- More passes than there are bytes change nothing (43_stream_parser R134). -/
theorem drainLoop_fuel (fuel fuel' : Nat) (b : Bytes) (h : b.length < fuel) (h' : b.length < fuel') :
    drainLoop fuel b = drainLoop fuel' b := by
  induction fuel generalizing fuel' b with
  | zero => omega
  | succ fuel ih =>
    obtain _ | fuel' := fuel'
    · omega
    · simp only [drainLoop, Memory.dropFront_eq]
      cases hf : find Config.sync b with
      | none => rfl
      | some i =>
        obtain ⟨rest, -, -, hi⟩ := (find_eq_some_iff _ _ _).1 hf
        have shorter (n : Nat) (hn : 0 < n) : ((b.drop i).drop n).length < fuel ∧ ((b.drop i).drop n).length < fuel' := by
          simp only [List.length_drop]
          omega
        simp only
        cases hd : decode1 (b.drop i) with
        | error e => rfl
        | ok v =>
          cases v with
          | incomplete => rfl
          | invalid => exact ih _ _ (shorter 1 (by omega)).1 (shorter 1 (by omega)).2
          | complete p n =>
            have hn := (decode1_complete_length hd).1
            simp only [ih _ _ (shorter n (by omega)).1 (shorter n (by omega)).2]

/-- One pass of DRAIN, for every buffer. -/
theorem drainBuf_eq (b : Bytes) :
    drainBuf b =
      match find Config.sync b with
      | none => ([], [])
      | some i =>
        match decode1 (b.drop i) with
        | .ok .invalid => drainBuf (b.drop (i + 1))
        | .ok .incomplete => ([], b.drop i)
        | .ok (.complete p n) => (p :: (drainBuf (b.drop (i + n))).1, (drainBuf (b.drop (i + n))).2)
        | .error _ => ([], b.drop i) := by
  rw [drainBuf, drainLoop]
  cases hf : find Config.sync b with
  | none => simp
  | some i =>
    obtain ⟨rest, -, -, hi⟩ := (find_eq_some_iff _ _ _).1 hf
    have loop (n : Nat) (hn : 0 < n) : drainLoop b.length ((b.drop i).drop n) = drainBuf (b.drop (i + n)) := by
      rw [List.drop_drop, drainBuf]
      apply drainLoop_fuel <;> simp only [List.length_drop] <;> omega
    simp only [Memory.dropFront_eq]
    cases hd : decode1 (b.drop i) with
    | error e => rfl
    | ok v =>
      cases v with
      | incomplete => rfl
      | invalid => exact loop 1 (by omega)
      | complete p n =>
        have hn := (decode1_complete_length hd).1
        simp only [loop n (by omega)]

/-- Bytes without a sync byte in front of a buffer change nothing: DRAIN discards them first. -/
theorem drainBuf_append_of_not_mem {pre : Bytes} (rest : Bytes) (h : Config.sync ∉ pre) :
    drainBuf (pre ++ rest) = drainBuf rest := by
  rw [drainBuf_eq, find_append_of_not_mem _ _ _ h, drainBuf_eq rest]
  cases find Config.sync rest with
  | none => rfl
  | some i =>
    have shift (k : Nat) : (pre ++ rest).drop (i + pre.length + k) = rest.drop (i + k) := by
      rw [show i + pre.length + k = pre.length + (i + k) by omega, List.drop_length_add_append]
    have front := shift 0
    simp only [Nat.add_zero] at front
    simp only [Option.map_some, front, shift]

/-- One pass of DRAIN on a buffer with the sync byte in front. -/
theorem drainBuf_sync (rest : Bytes) :
    drainBuf (Config.sync :: rest) =
      match decode1 (Config.sync :: rest) with
      | .ok .invalid => drainBuf rest
      | .ok .incomplete => ([], Config.sync :: rest)
      | .ok (.complete p n) =>
        (p :: (drainBuf ((Config.sync :: rest).drop n)).1, (drainBuf ((Config.sync :: rest).drop n)).2)
      | .error _ => ([], Config.sync :: rest) := by
  rw [drainBuf_eq, find_cons_self]
  simp only [List.drop_zero, Nat.zero_add, List.drop_succ_cons]

/-- A buffer is noise, or noise and then a sync byte. -/
theorem noise_or_sync (b : Bytes) :
    Config.sync ∉ b ∨ ∃ pre rest, b = pre ++ Config.sync :: rest ∧ Config.sync ∉ pre := by
  cases h : find Config.sync b with
  | none => exact .inl ((find_eq_none_iff _ _).1 h)
  | some i =>
    obtain ⟨rest, hdrop, hpre, -⟩ := (find_eq_some_iff _ _ _).1 h
    exact .inr ⟨b.take i, rest, by rw [← hdrop, List.take_append_drop], hpre⟩

/-- Induction along the passes of DRAIN: a property of a buffer and what DRAIN makes of it holds when each of the five
passes of 43_stream_parser R128 to R132 hands it on. -/
theorem drainBuf_induction {P : Bytes → List Packet × Bytes → Prop}
    (noise : ∀ b, Config.sync ∉ b → P b ([], []))
    (discard : ∀ pre rest r, Config.sync ∉ pre → pre ≠ [] → P (Config.sync :: rest) r → P (pre ++ Config.sync :: rest) r)
    (invalid : ∀ rest r, decode1 (Config.sync :: rest) = .ok .invalid → P rest r → P (Config.sync :: rest) r)
    (incomplete : ∀ rest, decode1 (Config.sync :: rest) = .ok .incomplete →
      P (Config.sync :: rest) ([], Config.sync :: rest))
    (complete : ∀ rest p n r, decode1 (Config.sync :: rest) = .ok (.complete p n) →
      P ((Config.sync :: rest).drop n) r → P (Config.sync :: rest) (p :: r.1, r.2))
    (b : Bytes) : P b (drainBuf b) := by
  have main (k : Nat) : ∀ b : Bytes, b.length ≤ k → P b (drainBuf b) := by
    induction k with
    | zero =>
      intro b hb
      obtain rfl : b = [] := by simpa using hb
      exact noise [] (by simp)
    | succ k ih =>
      have atSync (rest : Bytes) (hr : rest.length ≤ k) : P (Config.sync :: rest) (drainBuf (Config.sync :: rest)) := by
        obtain ⟨v, hv⟩ := decode1_sync rest
        rw [drainBuf_sync, hv]
        cases v with
        | invalid => exact invalid rest _ hv (ih rest hr)
        | incomplete => exact incomplete rest hv
        | complete p n =>
          have hn := (decode1_complete_length hv).1
          refine complete rest p n _ hv (ih _ ?_)
          simp only [List.length_drop, List.length_cons]
          omega
      intro b hb
      rcases noise_or_sync b with h | ⟨pre, rest, rfl, h⟩
      · rw [drainBuf_eq, (find_eq_none_iff _ _).2 h]
        exact noise b h
      · simp only [List.length_append, List.length_cons] at hb
        by_cases hpre : pre = []
        · subst hpre
          exact atSync rest (by simp at hb; omega)
        · rw [drainBuf_append_of_not_mem _ h]
          exact discard pre rest _ h hpre (atSync rest (by omega))
  exact main b.length b (Nat.le_refl _)

end Sys2Proof.Machine
end

