-- ==== Sys2Proof/Laws/Exec.lean ====
section
/-! SUPPORT. What each operation does to the state, in one equation, and what `exec` and `step` can do at all. -/

namespace Sys2Proof.Machine

theorem exec_encode (pt : Byte) (data opt : Bytes) (s : State) :
    exec (.encode pt data opt) s = conclude ((encodeFrame pt data opt).map .frame) s := rfl

theorem exec_decode1_of_ok {b : Bytes} {v : Verdict} (h : decode1 b = .ok v) (s : State) :
    exec (.decode1 b) s = .next (s.answer (.verdict v)) := by
  show conclude ((decode1 b).map .verdict) s = _
  rw [h]
  rfl

theorem exec_decode1_of_error {b : Bytes} {e : Abnormal} (h : decode1 b = .error e) (s : State) :
    exec (.decode1 b) s = .refused .noSync := by
  obtain ⟨rfl, -⟩ := decode1_error h
  show conclude ((decode1 b).map .verdict) s = _
  rw [h]
  rfl

/-- DECODE1's answer is the decode step's verdict. -/
theorem exec_decode1_eq_next_iff (b : Bytes) (v : Verdict) (s : State) :
    exec (.decode1 b) s = .next (s.answer (.verdict v)) ↔ decode1 b = .ok v := by
  cases h : decode1 b with
  | ok w =>
    rw [exec_decode1_of_ok h]
    constructor
    · intro heq
      simp only [Host.Outcome.next.injEq] at heq
      have := congrArg (fun t : State => t.result) heq
      simp at this
      rw [this]
    · intro heq
      simp at heq
      rw [heq]
  | error e => simp [exec_decode1_of_error h]

theorem exec_feed (chunk : Bytes) (s : State) :
    exec (.feed chunk) s = .next ((s.setBuf (s.buf.append chunk)).answer .done) := rfl

theorem exec_drain (s : State) :
    exec .drain s = .next ((s.setBuf (drainBuf s.buf).2).answer (.packets (drainBuf s.buf).1)) := rfl

theorem exec_reset (s : State) : exec .reset s = .next ((s.setBuf s.buf.clear).answer .done) := rfl

/-- The prefix row is the decode step on its six bytes. -/
theorem exec_esp3FramePrefix (dl : BitVec 16) (ol pt hc : Byte) (s : State) :
    exec (.esp3FramePrefix dl ol pt hc) s =
      .next (s.answer (.verdict (decodeBody 6 (highByte dl) (lowByte dl) ol pt hc []))) := rfl

/-- An operation that completes writes `BUF` and its result and nothing else. -/
theorem exec_next {i : Instr} {s t : State} (h : exec i s = .next t) :
    ∃ (m : Memory) (r : Result), t = (s.setBuf m).answer r := by
  have pure (r : Except Abnormal Result) (h : conclude r s = .next t) :
      ∃ (m : Memory) (r : Result), t = (s.setBuf m).answer r := by
    obtain ⟨x, rfl, -⟩ := conclude_next h
    exact ⟨s.buf, x, rfl⟩
  cases i with
  | encode pt data opt => exact pure _ h
  | decode1 bs => exact pure _ h
  | esp3FramePrefix dl ol pt hc =>
    exact pure (.ok (.verdict (decodeBody 6 (highByte dl) (lowByte dl) ol pt hc []))) h
  | crc8 bs => exact pure (.ok (.byte (crc8 bs))) h
  | rorg p => exact pure (.ok (.field (rorgOf p))) h
  | senderid p => exact pure (.ok (.senderId (senderIdOf p))) h
  | status p => exact pure (.ok (.field (statusOf p))) h
  | feed chunk => exact ⟨_, _, by simpa [exec_feed] using h.symm⟩
  | drain => exact ⟨_, _, by simpa [exec_drain] using h.symm⟩
  | reset => exact ⟨_, _, by simpa [exec_reset] using h.symm⟩

/-- A chunk that fits a given capacity is fed as it is without a bound. -/
theorem execWith_feed_of_fits {params : Config} {chunk : Bytes} {s : State}
    (h : fits params.bufCap s.buf chunk = true) : execWith params (.feed chunk) s = exec (.feed chunk) s := by
  simp [execWith, feedWithin, h, exec_feed, finish]

/-- A chunk that exceeds a given capacity is refused. -/
theorem execWith_feed_of_not_fits {params : Config} {chunk : Bytes} {s : State}
    (h : fits params.bufCap s.buf chunk = false) : execWith params (.feed chunk) s = .refused .bufferOverflow := by
  simp [execWith, feedWithin, h, raise]

/-- At the defaults the operations are the machine's. -/
theorem execWith_default : execWith Config.default = exec := by
  funext i s
  cases i <;> rfl

/-- At the defaults the step is the machine's. -/
theorem stepWith_default : stepWith Config.default = step := by
  funext s
  simp only [stepWith, step, execWith_default]

/-- Everything a step can do, whatever performs its operations: stand idle, perform the first request, or refuse it. -/
theorem stepBy_cases (perform : Instr → State → Host.Outcome State Fault Refusal) (s : State) :
    (s.requests = [] ∧ stepBy perform s = .next s) ∨
    (∃ q rest i, s.requests = q :: rest ∧ decode q = .ok i ∧
      stepBy perform s = perform i { s with requests := rest }) ∨
    (∃ q rest e, s.requests = q :: rest ∧ decode q = .error e ∧ stepBy perform s = rejectRequest e s) := by
  unfold stepBy
  rcases fetch_cases s with ⟨h, hf⟩ | ⟨q, rest, h, ⟨i, hd, hf⟩ | ⟨e, hd, hf⟩⟩ <;> rw [hf]
  · exact .inl ⟨h, rfl⟩
  · exact .inr (.inl ⟨q, rest, i, h, hd, rfl⟩)
  · exact .inr (.inr ⟨q, rest, e, h, hd, rfl⟩)

/-- Everything a step of the machine can do. -/
theorem step_cases (s : State) :
    (s.requests = [] ∧ step s = .next s) ∨
    (∃ q rest i, s.requests = q :: rest ∧ decode q = .ok i ∧ step s = exec i { s with requests := rest }) ∨
    (∃ q rest e, s.requests = q :: rest ∧ decode q = .error e ∧ step s = rejectRequest e s) :=
  stepBy_cases exec s

/-- A run of the machine takes its first step first. -/
theorem run_succ_of_step {k : Nat} {s s' : State} (h : step s = .next s') :
    Host.Core.run core (k + 1) s = Host.Core.run core k s' := by
  have h' : core.step s = .next s' := h
  simp only [Host.Core.run]
  rw [h']

/-- A request that names no operation has no next state. -/
theorem rejectRequest_ne_next (e : DecodeError) (s t : State) : rejectRequest e s ≠ .next t := by
  cases e <;> simp [rejectRequest, raise]

end Sys2Proof.Machine
end

