-- ==== Sys2Proof/Laws/PerInstr.lean ====
section
/-! SUPPORT. Statements about every operation as syntax. `Select`: the byte a request begins with is the one the opcode
table gives its row (spec/30_encoding.md R74, R60). -/

namespace Sys2Proof.Laws.Select

/-- The first byte of each row, written out from spec/opcode_table.json. -/
def firstByte : Instr → Byte
  | .crc8 _ => 0x01#8
  | .encode _ _ _ => 0x02#8
  | .decode1 _ => 0x03#8
  | .feed _ => 0x04#8
  | .drain => 0x05#8
  | .reset => 0x06#8
  | .rorg _ => 0x08#8
  | .senderid _ => 0x09#8
  | .status _ => 0x0A#8
  | .esp3FramePrefix _ _ _ _ => 0x55#8

/-- The request of the operation begins with its row's byte. -/
def Statement (i : Instr) : Prop := (Sys2Proof.encode i).head? = some (firstByte i)

theorem crc8 (bs : Bytes) : Statement (.crc8 bs) := rfl
theorem encode (pt : Byte) (data opt : Bytes) : Statement (.encode pt data opt) := rfl
theorem decode1 (bs : Bytes) : Statement (.decode1 bs) := rfl
theorem feed (chunk : Bytes) : Statement (.feed chunk) := rfl
theorem drain : Statement .drain := rfl
theorem reset : Statement .reset := rfl
theorem rorg (p : Packet) : Statement (.rorg p) := rfl
theorem senderid (p : Packet) : Statement (.senderid p) := rfl
theorem status (p : Packet) : Statement (.status p) := rfl
theorem esp3FramePrefix (dl : BitVec 16) (ol pt hc : Byte) : Statement (.esp3FramePrefix dl ol pt hc) := rfl

end Sys2Proof.Laws.Select
end

