-- ==== Sys2Proof/Tests/Slice0.lean ====
section
/-! SUPPORT. Tests: the encoding's words, the vectors of spec/95_test_vectors.md (at most two for an operation), the
WellFormed smoke test, and for each statement with hypotheses a state and operands that meet them (`wit_…`). -/

-- One theorem at a time: kernel evaluations side by side each take a thread of their own, and run out of memory.
set_option Elab.async false

namespace Sys2Proof.Machine

/-- The result that an outcome shows. -/
def resultOf : Host.Outcome State Fault Refusal → Option Result
  | .next t => t.result
  | .fault _ | .refused _ => none

/-- The buffer that an outcome leaves. -/
def bufOf : Host.Outcome State Fault Refusal → Option Bytes
  | .next t => some t.buf
  | .fault _ | .refused _ => none

/-- The refusal that an outcome is. -/
def refusalOf : Host.Outcome State Fault Refusal → Option Refusal
  | .refused r => some r
  | .next _ | .fault _ => none

/-- The reset state with some bytes buffered. -/
def buffered (b : Bytes) : State := State.reset.setBuf b

/-! ## Decoding: requests written out from 30_encoding R74, R60 and the link format of log 1 -/

theorem test_decode_crc8 : decode [0x01, 0x01, 0x80, 0x01, 0x01, 0x00] = .ok (.crc8 [0x80, 0x01]) := by decide +kernel

theorem test_decode_encode : decode [0x02, 0xFE, 0x01, 0x55, 0x00, 0x01, 0x07, 0x00] = .ok (.encode 0xFE [0x55] [0x07]) := by
  decide +kernel

theorem test_decode_decode1 : decode [0x03, 0x01, 0x55, 0x00] = .ok (.decode1 [0x55]) := by decide +kernel

theorem test_decode_feed : decode [0x04, 0x01, 0x00, 0x01, 0x55, 0x00] = .ok (.feed [0x00, 0x55]) := by decide +kernel

theorem test_decode_drain : decode [0x05] = .ok .drain := by decide +kernel

theorem test_decode_reset : decode [0x06] = .ok .reset := by decide +kernel

theorem test_decode_rorg : decode [0x08, 0x01, 0x01, 0xF6, 0x00, 0x00] = .ok (.rorg ⟨0x01, [0xF6], []⟩) := by
  decide +kernel

theorem test_decode_senderid : decode [0x09, 0x01, 0x00, 0x01, 0xAA, 0x00] = .ok (.senderid ⟨0x01, [], [0xAA]⟩) := by
  decide +kernel

theorem test_decode_status : decode [0x0A, 0x02, 0x01, 0x30, 0x00, 0x00] = .ok (.status ⟨0x02, [0x30], []⟩) := by
  decide +kernel

/-- The 48 bits of 30_encoding R60: 01010101, then dl = 0x0102 high byte first, ol, pt, hc. -/
theorem test_decode_frame_prefix :
    decode [0b01010101, 0x01, 0x02, 0x03, 0x04, 0x05] = .ok (.esp3FramePrefix 0x0102 0x03 0x04 0x05) := by
  decide +kernel

theorem test_decode_unused : decode [0x07] = .error .illegalOp ∧ decode [0x0B, 0x00] = .error .illegalOp := by
  decide +kernel

theorem test_decode_malformed :
    decode [] = .error .malformed ∧ decode [0x05, 0x00] = .error .malformed ∧ decode [0x15] = .error .malformed ∧
      decode [0x04, 0x02, 0x00] = .error .malformed := by decide +kernel

/-! ## WellFormed -/

/-- One data byte too many (10_state R22). -/
theorem test_ill_formed_data : (Instr.rorg ⟨0x01, List.replicate 65536 0x00, []⟩).wellFormed = false := by
  rw [Instr.wellFormed, Packet.wf, List.length_replicate]
  rfl

/-- One optional byte too many (10_state R22). -/
theorem test_ill_formed_opt : (Instr.status ⟨0x01, [], List.replicate 256 0x00⟩).wellFormed = false := by
  rw [Instr.wellFormed, Packet.wf, List.length_replicate]
  rfl

theorem test_ill_formed_rejected :
    decode (encode (.rorg ⟨0x01, [], List.replicate 256 0xBB⟩)) = .error .notAPacket := by decide +kernel

/-! ## CRC8 (95 V-CRC-STEP, V-CRC-9) -/

theorem test_crc8_step : crc8Step 0x7A 0xF6 = 0xAD ∧ crc8Step 0x00 0x80 = 0x89 := by decide +kernel

theorem test_crc8_check : resultOf (exec (.crc8 [0x31, 0x32, 0x33, 0x34, 0x35, 0x36, 0x37, 0x38, 0x39]) State.reset) =
    some (.byte 0xF4) := by decide +kernel

/-! ## ENCODE (95 E3, E6b) -/

theorem test_encode_e3 :
    resultOf (exec (.encode 0x01 [0xF6, 0x70, 0x01, 0x02, 0x03, 0x04, 0x30] [0x03, 0xFF, 0xFF, 0xFF, 0xFF, 0x2D, 0x00])
      State.reset) =
    some (.frame [0x55, 0x00, 0x07, 0x07, 0x01, 0x7A, 0xF6, 0x70, 0x01, 0x02, 0x03, 0x04, 0x30, 0x03, 0xFF, 0xFF, 0xFF,
      0xFF, 0x2D, 0x00, 0xBE]) := by decide +kernel

theorem test_encode_e6b :
    resultOf (exec (.encode 0x01 [] (List.replicate 256 0xBB)) (buffered [0x55])) = some .encodingError ∧
    bufOf (exec (.encode 0x01 [] (List.replicate 256 0xBB)) (buffered [0x55])) = some [0x55] := by decide +kernel

/-! ## DECODE1 (95 DV18 with DV24, DV10) -/

theorem test_decode1_two_frames :
    resultOf (exec (.decode1 [0x55, 0x00, 0x01, 0x00, 0x01, 0x6C, 0xF6, 0xCC, 0x55, 0x00, 0x00, 0x02, 0x04, 0x36, 0x01,
      0x02, 0x1B]) State.reset) = some (.verdict (.complete ⟨0x01, [0xF6], []⟩ 8)) := by decide +kernel

theorem test_decode1_no_sync : refusalOf (exec (.decode1 [0xAA]) State.reset) = some .noSync := by decide +kernel

/-! ## FEED (95 F3; 43_stream_parser R143) -/

theorem test_feed_f3 : bufOf (exec (.feed [0x07, 0x07]) (buffered [0x55, 0x00])) = some [0x55, 0x00, 0x07, 0x07] := by
  decide +kernel

theorem test_feed_overflow :
    refusalOf (execWith ⟨some 2, none, none⟩ (.feed [0x07, 0x07]) (buffered [0x55])) = some .bufferOverflow ∧
    bufOf (execWith ⟨some 3, none, none⟩ (.feed [0x07, 0x07]) (buffered [0x55])) = some [0x55, 0x07, 0x07] := by
  decide +kernel

/-! ## DRAIN (95 P3 step 4, P6) -/

theorem test_drain_p3 :
    drainBuf [0x13, 0x37, 0x55, 0x00, 0x00, 0x00, 0x00, 0x00, 0x00, 0x99, 0x55, 0x00, 0x01, 0x00, 0x01, 0x6C, 0xF6, 0xCC,
      0x55, 0x00] = ([⟨0x00, [], []⟩, ⟨0x01, [0xF6], []⟩], [0x55, 0x00]) := by decide +kernel

theorem test_drain_p6 :
    resultOf (exec .drain (buffered [0x55, 0x00, 0x07, 0x00, 0x01, 0x11, 0x55, 0x00, 0x00, 0x00, 0x00, 0x00, 0x00, 0x3D])) =
      some (.packets [⟨0x00, [], []⟩]) := by decide +kernel

/-! ## RESET (95 F4) -/

theorem test_reset_f4 : bufOf (exec .reset (buffered [0x55, 0x00, 0x07, 0x07])) = some [] := by decide +kernel

/-! ## RORG, SENDERID, STATUS (95 K4, K5, K7) -/

theorem test_rorg_k5_k9 :
    resultOf (exec (.rorg ⟨0x01, [0xF6, 0x01, 0x02, 0x03, 0x04, 0x30], []⟩) State.reset) = some (.field (some 0xF6)) ∧
    resultOf (exec (.rorg ⟨0x02, [0xF6, 0x70], []⟩) State.reset) = some (.field none) := by decide +kernel

theorem test_senderid_k5_k4 :
    resultOf (exec (.senderid ⟨0x01, [0xF6, 0x01, 0x02, 0x03, 0x04, 0x30], []⟩) State.reset) =
      some (.senderId (some [0x01, 0x02, 0x03, 0x04])) ∧
    resultOf (exec (.senderid ⟨0x01, [0xF6, 0x01, 0x02, 0x03, 0x04], []⟩) State.reset) = some (.senderId none) := by
  decide +kernel

theorem test_senderid_text_k7 :
    senderIdText ⟨0x01, [0xD2, 0xAB, 0xCD, 0xEF, 0x00, 0x01, 0x00], []⟩ =
      some ['C', 'D', 'E', 'F', '0', '0', '0', '1'] ∧
    senderIdNumber ⟨0x01, [0xD2, 0xAB, 0xCD, 0xEF, 0x00, 0x01, 0x00], []⟩ = some 0xCDEF0001 := by decide +kernel

theorem test_status_k4_k8 :
    resultOf (exec (.status ⟨0x01, [0xF6, 0x01, 0x02, 0x03, 0x04], []⟩) State.reset) = some (.field (some 0x04)) ∧
    resultOf (exec (.status ⟨0x01, [], []⟩) State.reset) = some (.field none) := by decide +kernel

/-! ## The prefix row (95 DV13, DV14) -/

theorem test_prefix_dv14_dv13 :
    resultOf (exec (.esp3FramePrefix 0x0007 0x07 0x01 0x7A) State.reset) = some (.verdict .incomplete) ∧
    resultOf (exec (.esp3FramePrefix 0x0007 0x07 0x01 0x7B) State.reset) = some (.verdict .invalid) := by decide +kernel

/-! ## The step -/

theorem test_step_from_reset : bufOf (step (State.reset.withFetchWord 8 0x5)) = some [] := by decide +kernel

theorem test_step_prefix_from_reset :
    resultOf (step (State.reset.withFetchWord 48 0x550000000000)) = some (.verdict .incomplete) := by decide +kernel

theorem test_step_illegal_op : refusalOf (step (State.reset.withFetchWord 8 0x7)) = some .illegalOp := by decide +kernel

theorem test_status_numbers :
    outcomeStatus (step (State.reset.withFetchWord 8 0x7)) = some 4 ∧
    outcomeStatus (exec (.decode1 [0xAA]) State.reset) = some 2 ∧ Verdict.invalid.number = 2 := by decide +kernel

/-! ## Witnesses: states and operands that meet the hypotheses of each statement -/

/-- DecodeOfEncodeIsTheOperation, at the longest packet. -/
theorem wit_wellFormed_longest :
    (Instr.senderid ⟨0xFF, List.replicate 65535 0xAA, List.replicate 255 0xBB⟩).wellFormed = true := by
  rw [Instr.wellFormed, Packet.wf, List.length_replicate, List.length_replicate]
  rfl

/-- OnlyEncodingsDecode. -/
theorem wit_request_decodes : decode [0x04, 0x01, 0x55, 0x00] = .ok (.feed [0x55]) := by decide +kernel

/-- UnusedCodesAreRefused: the codes where used and unused meet. -/
theorem wit_unused_code_pending :
    ({ State.reset with requests := [[0x0B]] } : State).requests = ((0xB#4).setWidth 8 :: []) :: [] ∧
    decode [0x0A, 0x00, 0x00, 0x00] ≠ .error .illegalOp ∧ decode [0x00] = .error .illegalOp := by
  refine ⟨?_, ?_, ?_⟩ <;> decide +kernel

/-- StepPerformsTheDecodedOperation: a pending request that decodes, and none pending. -/
theorem wit_step_pending :
    ({ State.reset with requests := [[0x06], [0x05]] } : State).requests = [0x06] :: [[0x05]] ∧
    decode [0x06] = .ok .reset ∧ State.reset.requests = [] := by refine ⟨rfl, ?_, rfl⟩; decide +kernel

/-- StepsPerformTheIssuedSequence. -/
theorem wit_issued_sequence :
    (∀ i ∈ [Instr.feed [0x55], .drain], i.wellFormed = true) ∧
    ({ State.reset with requests := [[0x04, 0x01, 0x55, 0x00], [0x05], [0x06]] } : State).requests =
      [Instr.feed [0x55], .drain].map encode ++ [[0x06]] ∧
    (runOps [.feed [0x55], .drain] { State.reset with requests := [[0x06]] }).map (fun r => (r.1.buf, r.2)) =
      some ([0x55], []) ∧
    (runOpsWith ⟨some 1, none, none⟩ [.feed [0x55], .drain] { State.reset with requests := [[0x06]] }).map
      (fun r => (r.1.buf, r.2)) = some ([0x55], []) := by refine ⟨?_, ?_, ?_, ?_⟩ <;> decide +kernel

/-- Crc8IsLinearOnEqualLengths, Crc8DetectsEverySingleByteChange (95 V-CRC-LAWS). -/
theorem wit_crc8_operands : ([0xF6, 0x70] : Bytes).length = ([0x01, 0x02] : Bytes).length ∧ (0x01 : Byte) ≠ 0x00 := by
  decide +kernel

/-- EncodeAnswersTheLaidOutFrame and EncodedFrameDecodesToItsPacket, at both limits. -/
theorem wit_encode_limits :
    (List.replicate 65535 (0xAA : Byte)).length ≤ 65535 ∧ (List.replicate 255 (0xBB : Byte)).length ≤ 255 :=
  ⟨List.length_replicate.le, List.length_replicate.le⟩

/-- EncodeFailsExactlyOnOverlongOperands and EndingsCarryTheirStatusNumbers, at both limits. -/
theorem wit_encode_overlong :
    65536 ≤ (List.replicate 65536 (0xAA : Byte)).length ∧ 256 ≤ (List.replicate 256 (0xBB : Byte)).length :=
  ⟨List.length_replicate.ge, List.length_replicate.ge⟩

/-- DecodedPacketEncodesToItsBytes and DrainConsumesACompleteFrame: the smallest frame (95 DV8). -/
theorem wit_complete :
    exec (.decode1 (buffered [0x55, 0x00, 0x00, 0x00, 0x00, 0x00, 0x00, 0xAA]).buf)
        (buffered [0x55, 0x00, 0x00, 0x00, 0x00, 0x00, 0x00, 0xAA]) =
      .next ((buffered [0x55, 0x00, 0x00, 0x00, 0x00, 0x00, 0x00, 0xAA]).answer
        (.verdict (.complete ⟨0x00, [], []⟩ 7))) :=
  exec_decode1_of_ok (by decide +kernel) _

/-- Decode1IsRefusedExactlyWithoutSync and EndingsCarryTheirStatusNumbers: one byte (95 DV10). -/
theorem wit_no_sync : (0xAA : Byte) ≠ 0x55 := by decide

/-- Decode1ShortBufferIsIncomplete, at both ends. -/
theorem wit_short : ([0xFF, 0xFF, 0xFF, 0xFF] : Bytes).length ≤ 4 ∧ ([] : Bytes).length ≤ 4 := by decide

/-- Decode1BadHeaderIsInvalid (95 DV13). -/
theorem wit_bad_header : crc8 [0x00, 0x07, 0x07, 0x01] ≠ 0x7B := by decide +kernel

/-- Decode1UnfinishedFrameIsIncomplete: one byte short, just enough, and the longest (95 DV15, DV27). -/
theorem wit_unfinished :
    crc8 [0x00, 0x07, 0x07, 0x01] = 0x7A ∧
    ¬ 6 + (List.replicate 15 (0x00 : Byte)).length < 6 + (256 * (0x00 : Byte).toNat + (0x07 : Byte).toNat) + (0x07 : Byte).toNat + 1 ∧
    6 + (List.replicate 14 (0x00 : Byte)).length < 6 + (256 * (0x00 : Byte).toNat + (0x07 : Byte).toNat) + (0x07 : Byte).toNat + 1 ∧
    crc8 [0xFF, 0xFF, 0xFF, 0x01] = 0x2A ∧
    6 + (List.replicate 65790 (0x00 : Byte)).length <
      6 + (256 * (0xFF : Byte).toNat + (0xFF : Byte).toNat) + (0xFF : Byte).toNat + 1 := by
  rw [List.length_replicate, List.length_replicate, List.length_replicate]
  decide +kernel

/-- Decode1BadPayloadIsInvalid and Decode1GoodFrameIsComplete: the frame E10 (95). -/
theorem wit_whole_frame :
    crc8 [0x00, 0x00, 0x02, 0x04] = 0x36 ∧
    ([] : Bytes).length = 256 * (0x00 : Byte).toNat + (0x00 : Byte).toNat ∧
    ([0x01, 0x02] : Bytes).length = (0x02 : Byte).toNat ∧
    crc8 ([] ++ [0x01, 0x02]) = 0x1B ∧ crc8 ([] ++ [0x01, 0x02]) ≠ 0x1C := by decide +kernel

/-- Decode1VerdictsSurviveGrowth: each of the verdicts that stay, and the refusal. -/
theorem wit_verdicts (s : State) :
    exec (.decode1 [0x55, 0x00, 0x00, 0x00, 0x00, 0x01]) s = .next (s.answer (.verdict .invalid)) ∧
    exec (.decode1 [0x55, 0x00, 0x00, 0x00, 0x00, 0x00, 0x00]) s =
      .next (s.answer (.verdict (.complete ⟨0x00, [], []⟩ 7))) ∧
    exec (.decode1 [0xAA]) s = .refused .noSync :=
  ⟨exec_decode1_of_ok (by decide +kernel) s, exec_decode1_of_ok (by decide +kernel) s,
    exec_decode1_of_error (decode1_of_ne_sync _ (by decide)) s⟩

/-- Decode1IncompleteIsBounded: the empty buffer, and the longest (95 DV1, DV27). -/
theorem wit_incomplete (s : State) :
    exec (.decode1 []) s = .next (s.answer (.verdict .incomplete)) ∧
    exec (.decode1 (0x55 :: 0xFF :: 0xFF :: 0xFF :: 0x01 :: 0x2A :: List.replicate 65790 0x00)) s =
      .next (s.answer (.verdict .incomplete)) := by
  refine ⟨rfl, exec_decode1_of_ok ?_ s⟩
  have hcrc : crc8 [0xFF, 0xFF, 0xFF, 0x01] = 0x2A := by decide +kernel
  have hlen : frameLength (dataLength 0xFF 0xFF) 0xFF = 65797 := by decide +kernel
  refine (decode1_prefix 0xFF 0xFF 0xFF 0x01 0x2A (List.replicate 65790 0x00)).trans ?_
  simp only [decodeBody, hcrc, hlen, List.length_replicate]
  rfl

/-- FeedIsRefusedExactlyOnOverflow (last clause) and ConsecutiveFeedsConcatenate: unbounded, and a capacity that is just enough. -/
theorem wit_capacity :
    Config.default.Holds ((buffered [0x55]).buf.length + ([0x07, 0x07] : Bytes).length) ∧
    (⟨some 3, none, none⟩ : Config).Holds ((buffered [0x55]).buf.length + ([0x07, 0x07] : Bytes).length) ∧
    (⟨some 1, none, none⟩ : Config).Holds (buffered [0x55]).buf.length := by
  refine ⟨?_, ?_, ?_⟩ <;> intro m h <;> simp_all [buffered, Config.default]

/-- FeedIsRefusedExactlyOnOverflow, ParametersBearOnFeedAlone and EndingsCarryTheirStatusNumbers: one byte too many. -/
theorem wit_overflow :
    (⟨some 2, none, none⟩ : Config).bufCap = some 2 ∧
    2 < (buffered [0x55]).buf.length + ([0x07, 0x07] : Bytes).length := by decide +kernel

/-- DrainDiscardsABufferWithoutSync (95 G1, G2) and DrainDiscardsNoiseBeforeSync (95 G4). -/
theorem wit_noise :
    Noise (buffered []).buf ∧ Noise (buffered [0x00, 0x01, 0x02, 0xAA, 0xFF]).buf ∧ Noise [0xAA, 0xBB] ∧
    (buffered [0xAA, 0xBB, 0x55]).buf = [0xAA, 0xBB] ++ 0x55 :: [] ∧
    exec (.decode1 [0x55]) State.reset = .next (State.reset.answer (.verdict .incomplete)) := by
  refine ⟨by decide, by decide, by decide, rfl, rfl⟩

/-- DrainDropsOneByteOnInvalid (95 G7) and DrainStopsOnIncomplete (95 G11). -/
theorem wit_front_verdicts :
    exec (.decode1 (buffered [0x55, 0x00, 0x00, 0x00, 0x00, 0x01]).buf) (buffered [0x55, 0x00, 0x00, 0x00, 0x00, 0x01]) =
      .next ((buffered [0x55, 0x00, 0x00, 0x00, 0x00, 0x01]).answer (.verdict .invalid)) ∧
    exec (.decode1 (buffered [0x55, 0x55, 0x55, 0x55, 0x55]).buf) (buffered [0x55, 0x55, 0x55, 0x55, 0x55]) =
      .next ((buffered [0x55, 0x55, 0x55, 0x55, 0x55]).answer (.verdict .incomplete)) :=
  ⟨exec_decode1_of_ok (by decide +kernel) _, exec_decode1_of_ok (by decide +kernel) _⟩

/-- DrainAccountsForEveryByte: a DRAIN and its packets (95 G10), with `PKTS_MAX` = 1 and fewer than 14 bytes. -/
theorem wit_drained :
    resultOf (exec .drain (buffered [0x55, 0x00, 0x00, 0x00, 0x00, 0x00, 0x00, 0xAA, 0xBB])) =
      some (.packets [⟨0x00, [], []⟩]) ∧
    (⟨none, none, some 1⟩ : Config).pktsMax = some 1 ∧
    ([0x55, 0x00, 0x00, 0x00, 0x00, 0x00, 0x00, 0xAA, 0xBB] : Bytes).length < 7 * (1 + 1) := by decide +kernel

/-- PacketsDoNotDependOnChunking and CleanStreamDeliversEveryPacket: E9 with noise around it, cut in its length field. -/
theorem wit_stream :
    Noise State.reset.buf ∧
    (∀ i ∈ [Instr.feed [0x13, 0x55, 0x00], .drain, .feed [0x01, 0x00, 0x01, 0x6C, 0xF6, 0xCC, 0x99]],
      isFeedOrDrain i = true) ∧
    (∀ it ∈ [(([0x13] : Bytes), (⟨0x01, [0xF6], []⟩ : Packet))], Noise it.1 ∧ it.2.wf = true) ∧ Noise [0x99] ∧
    fedBytes [Instr.feed [0x13, 0x55, 0x00], .drain, .feed [0x01, 0x00, 0x01, 0x6C, 0xF6, 0xCC, 0x99]] =
      streamOf [([0x13], ⟨0x01, [0xF6], []⟩)] ++ [0x99] := by
  refine ⟨by decide, by decide, by decide +kernel, by decide, by decide +kernel⟩

/-- CorruptedHeaderCostsOneFrame: the frames of 95 P2. -/
theorem wit_corrupted_header :
    (⟨0x01, [0xF6, 0x70, 0x01, 0x02, 0x03, 0x04, 0x30], []⟩ : Packet).wf = true ∧
    (⟨0x01, [0xF6], []⟩ : Packet).wf = true ∧ (⟨0x04, [], [0x01, 0x02]⟩ : Packet).wf = true ∧
    (frameOfPacket ⟨0x01, [0xF6], []⟩)[5]? ≠ some 0x93 ∧
    Noise (((frameOfPacket ⟨0x01, [0xF6], []⟩).set 5 0x93).drop 1) := by decide +kernel

/-- FalseHeaderHoldsBackWholeFrames: the buffer of 95 P4 after step 2, E10 behind a false header. -/
theorem wit_false_header :
    (⟨0x04, [], [0x01, 0x02]⟩ : Packet).wf = true ∧
    (buffered [0x55, 0xFF, 0xFF, 0xFF, 0x01, 0x2A, 0x65, 0x55, 0x00, 0x00, 0x02, 0x04, 0x36, 0x01, 0x02, 0x1B]).buf =
      0x55 :: 0xFF :: 0xFF :: 0xFF :: 0x01 :: crc8 [0xFF, 0xFF, 0xFF, 0x01] ::
        ([0x65] ++ frameOfPacket ⟨0x04, [], [0x01, 0x02]⟩ ++ []) ∧
    ([0x65] : Bytes).length + (frameOfPacket ⟨0x04, [], [0x01, 0x02]⟩).length + ([] : Bytes).length ≤
      256 * (0xFF : Byte).toNat + (0xFF : Byte).toNat + (0xFF : Byte).toNat := by decide +kernel

/-- A capacity that is just enough for chunks of at most 4096 bytes. -/
def receiving : Config := ⟨some 69892, some 4096, none⟩

/-- ReceiveLoopIsNeverRefused. -/
theorem wit_receive_loop :
    State.reset.buf.length ≤ 65796 ∧ receiving.chunkMax = some 4096 ∧
    (∀ chunk ∈ [List.replicate 4096 (0x55 : Byte)], receiving.AllowsChunk chunk) ∧
    receiving.Holds (65796 + 4096) := by
  refine ⟨by decide, rfl, ?_, ?_⟩
  · intro chunk hc m hm
    simp only [List.mem_singleton] at hc
    simp only [receiving, Option.some.injEq] at hm
    subst hc hm
    exact List.length_replicate.le
  · intro m hm
    simp only [receiving, Option.some.injEq] at hm
    omega

/-- RorgIsTheFirstErp1Byte and StatusIsTheLastErp1Byte: one byte, no byte, another type (95 K3, K8, K9). -/
theorem wit_erp1_byte :
    (⟨0x01, [0xF6], []⟩ : Packet).data = 0xF6 :: [] ∧ (⟨0x01, [0xF6], []⟩ : Packet).data = [] ++ [0xF6] ∧
    (⟨0x01, [], []⟩ : Packet).data = [] ∧ (⟨0x02, [0xF6], []⟩ : Packet).packetType ≠ 0x01 := by
  refine ⟨rfl, rfl, rfl, by decide⟩

/-- SenderIdIsTheFourBytesBeforeTheStatus: six bytes and five (95 K5, K4). -/
theorem wit_senderid :
    (⟨0x01, [0xF6, 0x01, 0x02, 0x03, 0x04, 0x30], []⟩ : Packet).data = [0xF6] ++ [0x01, 0x02, 0x03, 0x04, 0x30] ∧
    ([0xF6] : Bytes) ≠ [] ∧ (⟨0x01, [0xF6, 0x01, 0x02, 0x03, 0x04], []⟩ : Packet).data.length < 6 := by
  refine ⟨rfl, by decide, by decide⟩

/-- Erp1ExampleHoldsForEveryPayload and SenderIdRenderingsCarryTheSameInformation: the empty payload. -/
theorem wit_erp1_example :
    (⟨0x01, [0xF6, 0x01, 0x02, 0x03, 0x04, 0x30], []⟩ : Packet) =
      ⟨0x01, 0xF6 :: ([] ++ [0x01, 0x02, 0x03, 0x04, 0x30]), []⟩ ∧
    senderIdOf ⟨0x01, [0xF6, 0x01, 0x02, 0x03, 0x04, 0x30], []⟩ = some [0x01, 0x02, 0x03, 0x04] := by
  refine ⟨rfl, by decide +kernel⟩

/-- PureOperationsAnswerFromOperandsAlone and OnlyDrainReadsTheBuffer: a completing and a refused operation. -/
theorem wit_pure (s : State) :
    isFeedOrDrain (.decode1 [0xAA]) = false ∧ Instr.decode1 [0xAA] ≠ .reset ∧ Instr.decode1 [0xAA] ≠ .drain ∧
    exec (.decode1 [0xAA]) s = .refused .noSync ∧
    isFeedOrDrain (.crc8 []) = false ∧ Instr.crc8 [] ≠ .reset ∧ Instr.crc8 [] ≠ .drain ∧
    exec (.crc8 []) s = .next (s.answer (.byte 0x00)) :=
  ⟨rfl, by decide, by decide, exec_decode1_of_error (decode1_of_ne_sync _ (by decide)) s, rfl, by decide, by decide, rfl⟩

/-- OnlyParserOperationsWriteTheBuffer and the last clause of EndingsCarryTheirStatusNumbers. -/
theorem wit_next (s : State) :
    exec (.status ⟨0x01, [0x30], []⟩) s = .next (s.answer (.field (some 0x30))) ∧
    (s.answer (.field (some 0x30))).result ≠ some .encodingError := ⟨rfl, by simp⟩

/-- StepTakesOneRequest and StepKeepsTheStateInvariant, in the machine and with a given capacity that is full. -/
theorem wit_step_inv :
    ({ buf := [0x55], requests := [[0x06]], result := none } : State).Inv ∧
    ({ buf := [0x55], requests := [[0x06]], result := none } : State).InvWith ⟨some 1, none, none⟩ ∧
    step { buf := [0x55], requests := [[0x06]], result := none } =
      .next { buf := [], requests := [], result := some .done } ∧
    stepWith ⟨some 1, none, none⟩ { buf := [0x55], requests := [[0x06]], result := none } =
      .next { buf := [], requests := [], result := some .done } := by
  have hd : decode [0x06#8] = .ok .reset := by decide +kernel
  have hstep (perform : Instr → State → Host.Outcome State Fault Refusal) :
      stepBy perform { buf := [0x55], requests := [[0x06]], result := none } =
        perform .reset { buf := [0x55], requests := [], result := none } := by
    simp only [stepBy, fetch, show ([0x06] : Bytes) = [0x06#8] from rfl, hd]
  refine ⟨⟨rfl, by simp⟩, ⟨rfl, by simp⟩, ?_, ?_⟩
  · exact (hstep exec).trans rfl
  · exact (hstep (execWith _)).trans rfl

end Sys2Proof.Machine
end

section
/-! SUPPORT. What the open parameters change of an operation and of a step (spec/00_scope.md R5,
spec/43_stream_parser.md R143). -/

namespace Sys2Proof.Machine

/-- A chunk does not fit exactly when the capacity is finite and too small (43_stream_parser R143). -/
theorem fits_eq_false_iff (cap : Option Nat) (buf c : Bytes) :
    fits cap buf c = false ↔ ∃ n, cap = some n ∧ n < buf.length + c.length := by
  rw [← Bool.not_eq_true, fits_iff]
  simp

/-- Only FEED reads a parameter (00_scope R5; log 10). -/
theorem execWith_eq_exec {i : Instr} (h : ∀ chunk, i ≠ .feed chunk) (params : Config) (s : State) :
    execWith params i s = exec i s := by
  cases i with
  | feed chunk => exact absurd rfl (h chunk)
  | crc8 | encode | decode1 | drain | reset | rorg | senderid | status | esp3FramePrefix => rfl

/-- With parameters given an operation does what it does without, or is a FEED beyond the capacity and refused. -/
theorem execWith_cases (params : Config) (i : Instr) (s : State) :
    execWith params i s = exec i s ∨
      ∃ (chunk : Bytes) (cap : Nat), i = .feed chunk ∧ params.bufCap = some cap ∧
        cap < s.buf.length + chunk.length ∧ execWith params i s = .refused .bufferOverflow := by
  by_cases hi : ∃ chunk, i = .feed chunk
  · obtain ⟨chunk, rfl⟩ := hi
    cases hfit : fits params.bufCap s.buf chunk with
    | true => exact .inl (execWith_feed_of_fits hfit)
    | false =>
      obtain ⟨cap, hcap, hlt⟩ := (fits_eq_false_iff _ _ _).1 hfit
      exact .inr ⟨chunk, cap, rfl, hcap, hlt, execWith_feed_of_not_fits hfit⟩
  · exact .inl (execWith_eq_exec (fun chunk h => hi ⟨chunk, h⟩) params s)

/-- A step with parameters given is the machine's, or its first request is a FEED beyond the capacity and refused. -/
theorem stepWith_step_cases (params : Config) (s : State) :
    stepWith params s = step s ∨
      ∃ (request : Bytes) (rest : List Bytes) (chunk : Bytes) (cap : Nat),
        s.requests = request :: rest ∧ decode request = .ok (.feed chunk) ∧ params.bufCap = some cap ∧
        cap < s.buf.length + chunk.length ∧ stepWith params s = .refused .bufferOverflow := by
  unfold stepWith step stepBy
  rcases fetch_cases s with ⟨-, hfetch⟩ | ⟨q, rest, hreq, ⟨i, hdec, hfetch⟩ | ⟨e, -, hfetch⟩⟩
  case inl => exact .inl (by rw [hfetch])
  case inr.inr => exact .inl (by rw [hfetch])
  case inr.inl =>
    rw [hfetch]
    rcases execWith_cases params i { s with requests := rest } with heq | ⟨chunk, cap, rfl, hcap, hlt, href⟩
    · exact .inl heq
    · exact .inr ⟨q, rest, chunk, cap, hreq, hdec, hcap, hlt, href⟩

/-- At the defaults the machine with parameters given is the machine (log 9). -/
theorem coreWith_default : coreWith Config.default = core := by
  rw [coreWith, stepWith_default, core]

/-- Settles O55: FEED is the one operation that reads a parameter, and a step performs one operation. -/
theorem parametersBearOnFeedAlone : Obligations.ParametersBearOnFeedAlone :=
  ⟨coreWith_default, fun params s => ⟨fun i => execWith_cases params i s, stepWith_step_cases params s⟩⟩

end Sys2Proof.Machine
end

section
/-! SUPPORT. The host's receive loop (spec/00_scope.md R10): DRAIN leaves at most 65796 bytes, so a capacity with room
for one chunk beyond them is never exceeded (spec/20_memory.md R54). -/

namespace Sys2Proof.Machine

/-- Past the header checksum, `Incomplete` means fewer bytes than the frame length (42_frame_decode R116). -/
theorem decodeBody_incomplete {len : Nat} {lh ll ol pt hc : Byte} {body : Bytes}
    (h : decodeBody len lh ll ol pt hc body = .incomplete) : len < frameLength (dataLength lh ll) ol := by
  unfold decodeBody at h
  split at h
  · cases h
  · by_contra hlen
    simp only [hlen, if_false] at h
    split at h <;> cases h

/-- A buffer that waits for more bytes is shorter than the longest frame (42_frame_decode R122). -/
theorem decode1_incomplete_length {b : Bytes} (h : decode1 b = .ok .incomplete) : b.length ≤ 65796 := by
  match b, h with
  | [], _ | [_], _ | [_, _], _ | [_, _, _], _ | [_, _, _, _], _ | [_, _, _, _, _], _ => simp
  | b0 :: lh :: ll :: ol :: pt :: hc :: body, h =>
    by_cases hs : b0 = Config.sync
    · subst hs
      rw [decode1_prefix, Except.ok.injEq] at h
      have hlt := decodeBody_incomplete h
      have hmax := frameLength_bounds (dataLength lh ll) ol
      simp only [List.length_cons]
      omega
    · rw [decode1_of_ne_sync _ hs] at h
      cases h

/-- DRAIN leaves at most 65796 bytes (43_stream_parser R135). -/
theorem drainBuf_length_le (b : Bytes) : (drainBuf b).2.length ≤ 65796 :=
  drainBuf_induction (P := fun _ r => r.2.length ≤ 65796)
    (noise := fun _ _ => by simp)
    (discard := fun _ _ _ _ _ ih => ih)
    (invalid := fun _ _ _ ih => ih)
    (incomplete := fun _ h => decode1_incomplete_length h)
    (complete := fun _ _ _ _ _ ih => ih) b

/-- The state after one round of the receive loop: the chunk fed and `BUF` drained. -/
def State.received (s : State) (chunk : Bytes) : State :=
  (s.setBuf (drainBuf (s.buf ++ chunk)).2).answer (.packets (drainBuf (s.buf ++ chunk)).1)

theorem State.received_buf_length_le (s : State) (chunk : Bytes) : (s.received chunk).buf.length ≤ 65796 :=
  drainBuf_length_le _

/-- DRAIN on the state that FEED leaves ends the round. -/
theorem exec_drain_after_feed (s : State) (chunk : Bytes) :
    exec .drain ((s.setBuf (s.buf.append chunk)).answer .done) = .next (s.received chunk) := rfl

/-- A run goes on from the state its first operation leaves. -/
theorem runOpsBy_cons_of_next {perform : Instr → State → Host.Outcome State Fault Refusal} {i : Instr} {s t : State}
    (h : perform i s = .next t) (is : List Instr) :
    runOpsBy perform (i :: is) s = (runOpsBy perform is t).map fun r => (r.1, packetsIn t.result ++ r.2) := by
  rw [runOpsBy, h]

/-- One round of the receive loop, for whatever performs its FEED and its DRAIN as the machine does. -/
theorem runOpsBy_receiveLoop_cons {perform : Instr → State → Host.Outcome State Fault Refusal} {s : State}
    {chunk : Bytes} (hfeed : perform (.feed chunk) s = exec (.feed chunk) s)
    (hdrain : ∀ t, perform .drain t = exec .drain t) (chunks : List Bytes) :
    runOpsBy perform (receiveLoop (chunk :: chunks)) s =
      (runOpsBy perform (receiveLoop chunks) (s.received chunk)).map fun r =>
        (r.1, (drainBuf (s.buf ++ chunk)).1 ++ r.2) := by
  show runOpsBy perform (.feed chunk :: .drain :: receiveLoop chunks) s = _
  rw [runOpsBy_cons_of_next (hfeed.trans (exec_feed chunk s)),
    runOpsBy_cons_of_next ((hdrain _).trans (exec_drain_after_feed s chunk)), Option.map_map]
  rfl

/-- The receive loop runs to its end and keeps the bound on `BUF`. -/
theorem runOps_receiveLoop (chunks : List Bytes) {s : State} (hs : s.buf.length ≤ 65796) :
    ∃ (t : State) (ps : List Packet), runOps (receiveLoop chunks) s = some (t, ps) ∧ t.buf.length ≤ 65796 := by
  induction chunks generalizing s with
  | nil => exact ⟨s, [], rfl, hs⟩
  | cons chunk chunks ih =>
    obtain ⟨t, ps, hrun, ht⟩ := ih (s.received_buf_length_le chunk)
    refine ⟨t, (drainBuf (s.buf ++ chunk)).1 ++ ps, ?_, ht⟩
    exact (runOpsBy_receiveLoop_cons rfl (fun _ => rfl) chunks).trans (congrArg _ hrun)

/-- Where the capacity has room for every chunk beyond 65796 bytes, the receive loop runs as without a bound. -/
theorem runOpsWith_receiveLoop {params : Config} {chunks : List Bytes}
    (hroom : ∀ chunk ∈ chunks, params.Holds (65796 + chunk.length)) {s : State} (hs : s.buf.length ≤ 65796) :
    runOpsWith params (receiveLoop chunks) s = runOps (receiveLoop chunks) s := by
  induction chunks generalizing s with
  | nil => rfl
  | cons chunk chunks ih =>
    obtain ⟨hchunk, hchunks⟩ := List.forall_mem_cons.1 hroom
    have hfits : fits params.bufCap s.buf chunk = true :=
      (fits_iff _ _ _).2 fun cap hcap => (Nat.add_le_add_right hs _).trans (hchunk cap hcap)
    calc runOpsWith params (receiveLoop (chunk :: chunks)) s
      _ = (runOpsWith params (receiveLoop chunks) (s.received chunk)).map _ :=
        runOpsBy_receiveLoop_cons (execWith_feed_of_fits hfits) (fun _ => rfl) chunks
      _ = (runOps (receiveLoop chunks) (s.received chunk)).map _ := by
        rw [ih hchunks (s.received_buf_length_le chunk)]
      _ = runOps (receiveLoop (chunk :: chunks)) s :=
        (runOpsBy_receiveLoop_cons rfl (fun _ => rfl) chunks).symm

/-- Settles O42, by induction on the chunks: every round leaves at most 65796 bytes, so the next chunk fits. -/
theorem receiveLoopIsNeverRefused : Obligations.ReceiveLoopIsNeverRefused := by
  intro chunks s hs
  obtain ⟨t, ps, hrun, ht⟩ := runOps_receiveLoop chunks hs
  refine ⟨t, ps, hrun, ht, fun params m hm hallowed hholds => ?_⟩
  have hroom (chunk : Bytes) (hmem : chunk ∈ chunks) : params.Holds (65796 + chunk.length) := fun cap hcap =>
    (Nat.add_le_add_left (hallowed chunk hmem m hm) _).trans (hholds cap hcap)
  rw [runOpsWith_receiveLoop hroom hs, hrun]

end Sys2Proof.Machine
end

section
/-! SUPPORT. How far an operation depends on `BUF` and writes it (spec/10_state.md R20, R21, R30;
spec/20_memory.md R40): all but FEED, DRAIN and RESET end with a result or a refusal fixed by their operands. -/

namespace Sys2Proof.Machine

/-- How an operation without state effect ends is fixed before the state is known. -/
theorem conclude_cases (r : Except Abnormal Result) :
    (∃ x, ∀ s, conclude r s = .next (s.answer x)) ∨ (∃ x, ∀ s, conclude r s = .refused x) := by
  cases r with
  | ok x => exact .inl ⟨x, fun _ => rfl⟩
  | error e =>
    cases e with
    | encodingError => exact .inl ⟨.encodingError, fun _ => rfl⟩
    | noSync => exact .inr ⟨.noSync, fun _ => rfl⟩
    | bufferOverflow => exact .inr ⟨.bufferOverflow, fun _ => rfl⟩
    | illegalOp => exact .inr ⟨.illegalOp, fun _ => rfl⟩

/-- An operation other than FEED, DRAIN and RESET concludes with an ending its operands alone fix. -/
theorem exec_eq_conclude {i : Instr} (hi : isFeedOrDrain i = false) (hr : i ≠ .reset) :
    ∃ r : Except Abnormal Result, ∀ s, exec i s = conclude r s := by
  cases i with
  | crc8 bs => exact ⟨.ok (.byte (crc8 bs)), fun _ => rfl⟩
  | encode pt data opt => exact ⟨(encodeFrame pt data opt).map .frame, exec_encode pt data opt⟩
  | decode1 bs => exact ⟨(decode1 bs).map .verdict, fun _ => rfl⟩
  | rorg p => exact ⟨.ok (.field (rorgOf p)), fun _ => rfl⟩
  | senderid p => exact ⟨.ok (.senderId (senderIdOf p)), fun _ => rfl⟩
  | status p => exact ⟨.ok (.field (statusOf p)), fun _ => rfl⟩
  | esp3FramePrefix dl ol pt hc =>
    exact ⟨.ok (.verdict (decodeBody 6 (highByte dl) (lowByte dl) ol pt hc [])), exec_esp3FramePrefix dl ol pt hc⟩
  | feed | drain => cases hi
  | reset => exact absurd rfl hr

/-- An operation other than FEED, DRAIN and RESET hands back one result from every state and writes nothing else, or is
refused in every state alike. -/
theorem exec_pure_cases {i : Instr} (hi : isFeedOrDrain i = false) (hr : i ≠ .reset) :
    (∃ r, ∀ s, exec i s = .next (s.answer r)) ∨ (∃ x, ∀ s, exec i s = .refused x) := by
  obtain ⟨r, h⟩ := exec_eq_conclude hi hr
  simpa only [h] using conclude_cases r

/-- An operation other than FEED, DRAIN and RESET leaves `BUF` as it was. -/
theorem exec_pure_keeps_buf {i : Instr} {s t : State} (hi : isFeedOrDrain i = false) (hr : i ≠ .reset)
    (h : exec i s = .next t) : t.buf = s.buf := by
  obtain ⟨r, hexec⟩ := exec_eq_conclude hi hr
  obtain ⟨x, rfl, -⟩ := conclude_next ((hexec s).symm.trans h)
  exact s.answer_buf x

/-- No operation takes or drops a pending request. -/
theorem exec_keeps_requests {i : Instr} {s t : State} (h : exec i s = .next t) : t.requests = s.requests := by
  obtain ⟨m, r, rfl⟩ := exec_next h
  rfl

/-- Settles O49: an operation that is none of the three only answers, and `exec_next` says what any operation writes. -/
theorem onlyParserOperationsWriteTheBuffer : Obligations.OnlyParserOperationsWriteTheBuffer := by
  intro i s t h
  refine ⟨exec_keeps_requests h, fun hi hr => ?_⟩
  have hbuf : t.buf = s.buf := exec_pure_keeps_buf hi hr h
  exact ⟨congrArg List.length hbuf, fun off => congrArg (·.byteAt off) hbuf⟩

/-- An operation other than DRAIN has one result, whatever it leaves in `BUF`, or one refusal, for all states: FEED and
RESET are done, the others answer from their operands. -/
theorem exec_result_of_ne_drain {i : Instr} (hi : i ≠ .drain) :
    (∃ r, ∀ s, ∃ t, exec i s = .next t ∧ t.result = some r) ∨ (∃ x, ∀ s, exec i s = .refused x) := by
  have pure (hf : isFeedOrDrain i = false) (hr : i ≠ .reset) :
      (∃ r, ∀ s, ∃ t, exec i s = .next t ∧ t.result = some r) ∨ (∃ x, ∀ s, exec i s = .refused x) :=
    (exec_pure_cases hf hr).imp_left fun ⟨r, h⟩ => ⟨r, fun s => ⟨_, h s, s.answer_result r⟩⟩
  cases i with
  | drain => exact absurd rfl hi
  | feed chunk => exact .inl ⟨.done, fun s => ⟨_, exec_feed chunk s, rfl⟩⟩
  | reset => exact .inl ⟨.done, fun s => ⟨_, exec_reset s, rfl⟩⟩
  | crc8 | encode | decode1 | rorg | senderid | status | esp3FramePrefix => exact pure rfl nofun

/-- Settles O50: the two runs end alike because all runs of the operation do. -/
theorem onlyDrainReadsTheBuffer : Obligations.OnlyDrainReadsTheBuffer := by
  intro i s m hi
  rcases exec_result_of_ne_drain hi with ⟨r, h⟩ | ⟨x, h⟩
  · obtain ⟨u, hu, hur⟩ := h s
    obtain ⟨u', hu', hur'⟩ := h { s with buf := m }
    constructor
    · intro t ht
      obtain rfl : u = t := Host.Outcome.next.inj (hu.symm.trans ht)
      exact ⟨u', hu', hur'.trans hur.symm⟩
    · intro y hy
      cases hu.symm.trans hy
  · constructor
    · intro t ht
      cases (h s).symm.trans ht
    · intro y hy
      exact (h _).trans ((h s).symm.trans hy)

/-- DRAIN on an empty buffer finds nothing and leaves nothing. -/
@[simp] theorem drainBuf_nil : drainBuf [] = ([], []) := rfl

/-- The reset state is within the invariant, whatever the parameters. -/
theorem State.reset_invWith (params : Config) : State.reset.InvWith params :=
  ⟨Memory.wf_reset params.bufCap, nofun⟩

/-- Settles O57: the reset buffer is empty, so it fits every capacity and DRAIN finds no packet in it. -/
theorem resetStateIsEmptyAndInvariant : Obligations.ResetStateIsEmptyAndInvariant := by
  refine ⟨State.reset_buf, State.reset_invWith _, State.reset_invWith, _, exec_drain State.reset, ?_, ?_⟩
  · simp
  · simp

end Sys2Proof.Machine
end

section
/-! SUPPORT. What a step of any machine keeps (spec/20_memory.md R51, R54, R55): each operation hands back a result
that the spec allows and leaves `BUF` within its capacity, and a step performs at most one operation. -/

namespace Sys2Proof

/-- The ranges of a Packet as inequalities (10_state R22). -/
theorem Packet.wf_iff (p : Packet) : p.wf = true ↔ p.data.length ≤ 65535 ∧ p.opt.length ≤ 255 := by
  simp [Packet.wf]

end Sys2Proof

namespace Sys2Proof.Machine

/-- Settles O48: each such operation concludes with an ending that its operands fix. -/
theorem pureOperationsAnswerFromOperandsAlone : Obligations.PureOperationsAnswerFromOperandsAlone :=
  fun _ hi hr => exec_pure_cases hi hr

/-- A step that gives a next state stood idle, or took the first request and performed its operation. -/
theorem stepBy_next {perform : Instr → State → Host.Outcome State Fault Refusal} {s t : State}
    (h : stepBy perform s = .next t) :
    (s.requests = [] ∧ t = s) ∨
      ∃ q rest i, s.requests = q :: rest ∧ decode q = .ok i ∧ perform i { s with requests := rest } = .next t := by
  rcases stepBy_cases perform s with ⟨hreq, hstep⟩ | ⟨q, rest, i, hreq, hdec, hstep⟩ | ⟨q, rest, e, -, -, hstep⟩
  · exact .inl ⟨hreq, Host.Outcome.next.inj (h.symm.trans hstep)⟩
  · exact .inr ⟨q, rest, i, hreq, hdec, hstep.symm.trans h⟩
  · exact absurd (hstep.symm.trans h) (rejectRequest_ne_next e s t)

/-- An operation that completes with parameters given completes alike without. -/
theorem exec_next_of_execWith_next {params : Config} {i : Instr} {s t : State} (h : execWith params i s = .next t) :
    exec i s = .next t := by
  rcases execWith_cases params i s with heq | ⟨chunk, cap, -, -, -, href⟩
  · exact heq.symm.trans h
  · cases href.symm.trans h

/-- A step whose operations leave the pending requests alone takes the first request and no other. -/
theorem stepBy_next_requests {perform : Instr → State → Host.Outcome State Fault Refusal}
    (hkeep : ∀ {i s t}, perform i s = .next t → t.requests = s.requests) {s t : State}
    (h : stepBy perform s = .next t) : t.requests = s.requests.tail := by
  rcases stepBy_next h with ⟨hreq, rfl⟩ | ⟨q, rest, i, hreq, -, hperf⟩
  · rw [hreq, List.tail_nil]
  · rw [hkeep hperf, hreq, List.tail_cons]

/-- Settles O54: no operation touches the pending requests, so what a step takes is what `fetch` takes. -/
theorem stepTakesOneRequest : Obligations.StepTakesOneRequest := fun _ _ =>
  ⟨stepBy_next_requests exec_keeps_requests,
    fun _ => stepBy_next_requests fun h => exec_keeps_requests (exec_next_of_execWith_next h)⟩

/-- A decoded packet is in range and its count is its frame's length (42_frame_decode R118, 30_encoding R61). -/
theorem decode1_complete_wf {b : Bytes} {p : Packet} {n : Nat} (h : decode1 b = .ok (.complete p n)) :
    p.wf = true ∧ n = 7 + p.data.length + p.opt.length := by
  obtain ⟨lh, ll, ol, hc, body, rfl, -, hn, hle, hdata, hopt, -⟩ := decode1_complete h
  have hdl := dataLength_toNat lh ll
  simp only [frameLength_eq, List.length_cons] at hn hle
  have hdataLen : p.data.length = (dataLength lh ll).toNat := by
    rw [hdata, List.length_take]
    omega
  have hoptLen : p.opt.length = ol.toNat := by
    rw [hopt, List.length_take, List.length_drop]
    omega
  rw [Packet.wf_iff]
  omega

/-- Every verdict of the decode step is one that the spec allows. -/
theorem decode1_verdict_wf {b : Bytes} {v : Verdict} (h : decode1 b = .ok v) : (Result.verdict v).wf = true := by
  cases v with
  | incomplete => rfl
  | invalid => rfl
  | complete p n =>
    obtain ⟨hp, hn⟩ := decode1_complete_wf h
    simp [Result.wf, hp, hn]

/-- A frame of `ENCODE` has a legal length and begins with the sync byte (41_frame_encode R102). -/
theorem encodeFrame_frame_wf {pt : Byte} {data opt f : Bytes} (h : encodeFrame pt data opt = .ok f) :
    (Result.frame f).wf = true := by
  rcases encodeFrame_cases pt data opt with ⟨hdata, hopt, hok⟩ | ⟨-, herr⟩
  · obtain rfl : frameOf pt data opt = f := Except.ok.inj (hok.symm.trans h)
    have hlen := frameOf_length pt data opt
    have hhead : (frameOf pt data opt).head? = some Config.sync := by rw [frameOf_eq_cons, List.head?_cons]
    simp only [Result.wf, hhead, Config.frameMin, Config.frameMax, beq_self_eq_true, Bool.and_true, Bool.and_eq_true,
      decide_eq_true_eq]
    omega
  · cases herr.symm.trans h

/-- Every packet that DRAIN hands over is in range. -/
theorem drainBuf_packets_wf (b : Bytes) : (Result.packets (drainBuf b).1).wf = true :=
  drainBuf_induction (P := fun _ r => r.1.all Packet.wf = true)
    (noise := fun _ _ => rfl)
    (discard := fun _ _ _ _ _ ih => ih)
    (invalid := fun _ _ _ ih => ih)
    (incomplete := fun _ _ => rfl)
    (complete := fun _ _ _ _ h ih => by rw [List.all_cons, (decode1_complete_wf h).1, ih]; rfl) b

/-- DRAIN never lengthens the buffer. -/
theorem drainBuf_length_le_length (b : Bytes) : (drainBuf b).2.length ≤ b.length :=
  drainBuf_induction (P := fun b r => r.2.length ≤ b.length)
    (noise := fun _ _ => Nat.zero_le _)
    (discard := fun _ _ _ _ _ ih => ih.trans (by simp))
    (invalid := fun _ _ _ ih => ih.trans (by simp))
    (incomplete := fun _ _ => le_rfl)
    (complete := fun _ _ _ _ _ ih => ih.trans (by simp)) b

/-- A sender id that is there has four bytes (44_packet_fields R151). -/
theorem senderIdOf_wf (p : Packet) : (Result.senderId (senderIdOf p)).wf = true := by
  cases h : senderIdOf p with
  | none => rfl
  | some bs => simp [Result.wf, senderIdOf_length h]

/-- The state holds a result, and it is one that the spec allows. -/
def State.HasAllowedResult (t : State) : Prop := ∃ r, t.result = some r ∧ r.wf = true

/-- A normal ending with an allowed result. -/
theorem finish_next_hasAllowedResult {r : Result} {s t : State} (hr : r.wf = true) (h : finish r s = .next t) :
    t.HasAllowedResult := by
  obtain rfl := (finish_eq_next_iff r s t).1 h
  exact ⟨r, s.answer_result r, hr⟩

/-- An ending without state effect whose normal results are all allowed; the error result always is. -/
theorem conclude_map_next_hasAllowedResult {α : Type} {r : Except Abnormal α} {mk : α → Result} {s t : State}
    (hr : ∀ a, r = .ok a → (mk a).wf = true) (h : conclude (r.map mk) s = .next t) : t.HasAllowedResult := by
  cases r with
  | ok a => exact finish_next_hasAllowedResult (hr a rfl) h
  | error e =>
    obtain ⟨-, rfl⟩ := raise_next (show raise e s = .next t from h)
    exact ⟨.encodingError, State.answer_result _ _, rfl⟩

/-- Every operation that completes, from any state, hands back a result that the spec allows. -/
theorem exec_next_hasAllowedResult {i : Instr} {s t : State} (h : exec i s = .next t) : t.HasAllowedResult := by
  cases i with
  | encode => exact conclude_map_next_hasAllowedResult (fun _ => encodeFrame_frame_wf) h
  | decode1 => exact conclude_map_next_hasAllowedResult (fun _ => decode1_verdict_wf) h
  | esp3FramePrefix dl ol pt hc =>
    exact conclude_map_next_hasAllowedResult (r := decode1 (Config.sync :: headerBytes dl ol pt ++ [hc]))
      (fun _ => decode1_verdict_wf) h
  | drain => exact finish_next_hasAllowedResult (drainBuf_packets_wf s.buf) h
  | senderid p => exact finish_next_hasAllowedResult (senderIdOf_wf p) h
  | crc8 bs => exact finish_next_hasAllowedResult (r := .byte (crc8 bs)) rfl h
  | rorg p => exact finish_next_hasAllowedResult (r := .field (rorgOf p)) rfl h
  | status p => exact finish_next_hasAllowedResult (r := .field (statusOf p)) rfl h
  | feed => exact finish_next_hasAllowedResult (r := .done) rfl h
  | reset => exact finish_next_hasAllowedResult (r := .done) rfl h

/-- FEED that completes had room for its chunk and appended it (43_stream_parser R125, R143). -/
theorem execWith_feed_next {params : Config} {chunk : Bytes} {s t : State}
    (h : execWith params (.feed chunk) s = .next t) :
    fits params.bufCap s.buf chunk = true ∧ t.buf = s.buf.append chunk := by
  cases hfit : fits params.bufCap s.buf chunk with
  | true =>
    obtain rfl := Host.Outcome.next.inj ((exec_feed chunk s).symm.trans (exec_next_of_execWith_next h))
    exact ⟨rfl, rfl⟩
  | false => cases (execWith_feed_of_not_fits hfit).symm.trans h

/-- Every operation that completes leaves `BUF` within its capacity (20_memory R54): only FEED lengthens it, and FEED
beyond the capacity is refused. -/
theorem execWith_next_buf_wf {params : Config} {i : Instr} {s t : State} (hs : Memory.wf params.bufCap s.buf = true)
    (h : execWith params i s = .next t) : Memory.wf params.bufCap t.buf = true := by
  have hexec : exec i s = .next t := exec_next_of_execWith_next h
  have pure (hf : isFeedOrDrain i = false) (hr : i ≠ .reset) : Memory.wf params.bufCap t.buf = true := by
    rwa [exec_pure_keeps_buf hf hr hexec]
  cases i with
  | feed chunk =>
    obtain ⟨hfit, hbuf⟩ := execWith_feed_next h
    rw [hbuf]
    exact Memory.wf_append hfit
  | drain =>
    obtain rfl := Host.Outcome.next.inj ((exec_drain s).symm.trans hexec)
    exact Memory.wf_of_length_le (drainBuf_length_le_length s.buf) hs
  | reset =>
    obtain rfl := Host.Outcome.next.inj ((exec_reset s).symm.trans hexec)
    exact Memory.wf_clear params.bufCap s.buf
  | crc8 | encode | decode1 | rorg | senderid | status | esp3FramePrefix => exact pure rfl nofun

/-- An operation that completes keeps the invariant. -/
theorem execWith_keeps_invWith {params : Config} {i : Instr} {s t : State} (hs : s.InvWith params)
    (h : execWith params i s = .next t) : t.InvWith params := by
  obtain ⟨hbuf, -⟩ := hs
  obtain ⟨r, hres, hwf⟩ := exec_next_hasAllowedResult (exec_next_of_execWith_next h)
  refine ⟨execWith_next_buf_wf hbuf h, fun r' hr' => ?_⟩
  obtain rfl : r = r' := Option.some.inj (hres.symm.trans hr')
  exact hwf

/-- A step keeps the invariant: idle it changes nothing, and taking a request touches neither `BUF` nor the result. -/
theorem stepWith_keeps_invWith {params : Config} {s t : State} (hs : s.InvWith params)
    (h : stepWith params s = .next t) : t.InvWith params := by
  rcases stepBy_next h with ⟨-, rfl⟩ | ⟨q, rest, i, -, -, hexec⟩
  · exact hs
  · exact execWith_keeps_invWith (s := { s with requests := rest }) hs hexec

/-- Settles O56: the machine is the one with the default parameters, and with any parameters a step keeps the
invariant. -/
theorem stepKeepsTheStateInvariant : Obligations.StepKeepsTheStateInvariant := fun s _ =>
  ⟨fun hs h => stepWith_keeps_invWith hs ((congrFun stepWith_default s).trans h),
    fun _ => stepWith_keeps_invWith⟩

end Sys2Proof.Machine
end

section
/-! SUPPORT. The frame layout and the status numbers (spec/30_encoding.md R60 to R62, R76): what ENCODE answers on
either side of its limits, what stands at each offset of a frame, and which number an ending carries. -/

namespace Sys2Proof.Machine

/-- The high byte of a length as a number (30_encoding R66). -/
theorem highByte_eq_ofNat (dl : BitVec 16) : highByte dl = BitVec.ofNat 8 (dl.toNat / 256) := by
  rw [← highByte_toNat, BitVec.ofNat_toNat, BitVec.setWidth_eq]

/-- The low byte of a length as a number (30_encoding R66). -/
theorem lowByte_eq_ofNat (dl : BitVec 16) : lowByte dl = BitVec.ofNat 8 (dl.toNat % 256) := by
  rw [← lowByte_toNat, BitVec.ofNat_toNat, BitVec.setWidth_eq]

/-- ENCODE within its limits answers the frame and changes nothing else (41_frame_encode R100). -/
theorem exec_encode_of_le {data opt : Bytes} (hdata : data.length ≤ 65535) (hopt : opt.length ≤ 255) (pt : Byte)
    (s : State) : exec (.encode pt data opt) s = .next (s.answer (.frame (frameOf pt data opt))) := by
  rcases encodeFrame_cases pt data opt with ⟨-, -, hok⟩ | ⟨hover, -⟩
  · rw [exec_encode, hok]
    rfl
  · omega

/-- ENCODE beyond its limits answers the error and changes nothing else (41_frame_encode R101). -/
theorem exec_encode_of_overlong {data opt : Bytes} (hover : 65536 ≤ data.length ∨ 256 ≤ opt.length) (pt : Byte)
    (s : State) : exec (.encode pt data opt) s = .next (s.answer .encodingError) := by
  rcases encodeFrame_cases pt data opt with ⟨hdata, hopt, -⟩ | ⟨-, herr⟩
  · omega
  · rw [exec_encode, herr]
    rfl

/-- Behind the six prefix bytes of a frame stand its data, its optional data and the payload checksum (30_encoding
R60). -/
theorem frameOf_getElem?_payload (pt : Byte) (data opt : Bytes) (k : Nat) :
    (frameOf pt data opt)[6 + k]? = (data ++ (opt ++ [crc8 (data ++ opt)]))[k]? := by
  rw [frameOf_eq_cons, Nat.add_comm, List.append_assoc]
  rfl

theorem frameOf_getElem?_data (pt : Byte) {data : Bytes} (opt : Bytes) {k : Nat} (hk : k < data.length) :
    (frameOf pt data opt)[6 + k]? = data[k]? := by
  rw [frameOf_getElem?_payload, List.getElem?_append_left hk]

theorem frameOf_getElem?_opt (pt : Byte) (data : Bytes) {opt : Bytes} {k : Nat} (hk : k < opt.length) :
    (frameOf pt data opt)[6 + data.length + k]? = opt[k]? := by
  rw [Nat.add_assoc, frameOf_getElem?_payload, List.getElem?_append_right (Nat.le_add_right _ _),
    Nat.add_sub_cancel_left, List.getElem?_append_left hk]

theorem frameOf_getElem?_last (pt : Byte) (data opt : Bytes) :
    (frameOf pt data opt)[6 + data.length + opt.length]? = some (crc8 (data ++ opt)) := by
  rw [Nat.add_assoc, frameOf_getElem?_payload, ← List.length_append, ← List.append_assoc,
    List.getElem?_concat_length]

/-- The header in front of a frame whose data length fits its two bytes (30_encoding R60). -/
theorem headerBytes_ofNat {n : Nat} (hn : n ≤ 65535) (ol pt : Byte) :
    headerBytes (BitVec.ofNat 16 n) ol pt = [BitVec.ofNat 8 (n / 256), BitVec.ofNat 8 (n % 256), ol, pt] := by
  have htoNat : (BitVec.ofNat 16 n).toNat = n := Nat.mod_eq_of_lt (by omega)
  rw [headerBytes, highByte_eq_ofNat, lowByte_eq_ofNat, htoNat]

/-- The six prefix bytes of a frame whose data length fits its two bytes, and what follows them (30_encoding R60). -/
theorem frameOf_eq_prefix {data : Bytes} (hdata : data.length ≤ 65535) (pt : Byte) (opt : Bytes) :
    frameOf pt data opt =
      0x55#8 :: BitVec.ofNat 8 (data.length / 256) :: BitVec.ofNat 8 (data.length % 256) ::
        BitVec.ofNat 8 opt.length :: pt ::
        crc8 [BitVec.ofNat 8 (data.length / 256), BitVec.ofNat 8 (data.length % 256), BitVec.ofNat 8 opt.length, pt] ::
        (data ++ opt ++ [crc8 (data ++ opt)]) := by
  simp [frameOf, headerBytes_ofNat hdata]

/-- Settles O13: within the limits ENCODE answers `frameOf`, whose prefix is read off `frameOf_eq_prefix` and whose
payload off `frameOf_getElem?_payload`. -/
theorem encodeAnswersTheLaidOutFrame : Obligations.EncodeAnswersTheLaidOutFrame := by
  intro pt data opt s hdata hopt
  have hlen := frameOf_length pt data opt
  have hprefix := frameOf_eq_prefix hdata pt opt
  refine ⟨frameOf pt data opt, exec_encode_of_le hdata hopt pt s, hlen, by omega, by omega, ?_, ?_, ?_, ?_, ?_, ?_,
    fun k hk => frameOf_getElem?_data pt opt hk, fun k hk => frameOf_getElem?_opt pt data hk,
    frameOf_getElem?_last pt data opt⟩
  -- The six bytes of the prefix stand at their offsets in `frameOf_eq_prefix`.
  all_goals
    rw [hprefix]
    rfl

/-- Six bytes are too few for a frame, so the decode step judges them by the header checksum alone (42_frame_decode
R115, R116). -/
theorem decodeBody_nil (lh ll ol pt hc : Byte) :
    decodeBody 6 lh ll ol pt hc [] = if crc8 [lh, ll, ol, pt] = hc then .incomplete else .invalid := by
  have hshort : 6 < frameLength (dataLength lh ll) ol := (frameLength_bounds _ ol).1
  by_cases hcrc : crc8 [lh, ll, ol, pt] = hc
  · simp [decodeBody, hcrc, hshort]
  · simp [decodeBody, hcrc]

/-- Settles O25: the row is the decode step on its six bytes, the data length's high byte first. -/
theorem framePrefixIsJudgedByItsHeaderChecksum : Obligations.FramePrefixIsJudgedByItsHeaderChecksum := by
  intro dl ol pt hc s
  rw [exec_esp3FramePrefix, decodeBody_nil, highByte_eq_ofNat, lowByte_eq_ofNat]

/-- `EncodingError` is the one result whose status is not `OK` (30_encoding R76). -/
theorem Result.status_eq_zero {r : Result} (h : r ≠ .encodingError) : r.status = 0 := by
  cases r with
  | encodingError => exact absurd rfl h
  | byte | frame | verdict | done | packets | field | senderId => rfl

/-- An operation that completes without `EncodingError` shows the status `OK` (30_encoding R76). -/
theorem outcomeStatus_exec_next {i : Instr} {s t : State} (h : exec i s = .next t)
    (hres : t.result ≠ some .encodingError) : outcomeStatus (exec i s) = some 0 := by
  obtain ⟨m, r, rfl⟩ := exec_next h
  have hr : r ≠ .encodingError := fun heq => hres (congrArg some heq)
  rw [h]
  exact congrArg some (Result.status_eq_zero hr)

/-- Settles O53: each abnormal ending by the lemma that says how the operation ends, every other completion by
`outcomeStatus_exec_next`. -/
theorem endingsCarryTheirStatusNumbers : Obligations.EndingsCarryTheirStatusNumbers := by
  intro s
  refine ⟨fun pt data opt hover => ?overlong, fun b0 rest hne => ?noSync, fun params chunk cap hcap hlt => ?overflow,
    fun i t => outcomeStatus_exec_next⟩
  case overlong =>
    rw [exec_encode_of_overlong hover]
    rfl
  case noSync =>
    rw [exec_decode1_of_error (decode1_of_ne_sync rest hne)]
    rfl
  case overflow =>
    rw [execWith_feed_of_not_fits ((fits_eq_false_iff _ _ _).2 ⟨cap, hcap, hlt⟩)]
    rfl

end Sys2Proof.Machine
end

section
/-! SUPPORT. The checksum (spec/40_crc8.md): the step is the bit-serial register over the eight bits of a byte (R90,
R93), it is linear over XOR and it is invertible in each operand; the laws of R95 follow. -/

namespace Sys2Proof.Machine

/-- A round lets the incoming bits wait below the high bit, where the serial register takes one bit at a time. -/
theorem crc8Round_xor_eq_serialBit (acc b : Byte) : crc8Round (acc ^^^ b) = serialBit acc b.msb ^^^ (b <<< 1) := by
  have hmsb : (acc ^^^ b).msb = (acc.msb != b.msb) := BitVec.msb_xor
  rw [crc8Round_eq, hmsb, BitVec.shiftLeft_xor_distrib, serialBit]
  ac_rfl

/-- `n` rounds take the `n` highest bits of a byte through the serial register; the others still wait. -/
theorem crc8Rounds_xor_eq_foldl_serialBit (n : Nat) (acc b : Byte) :
    crc8Rounds n (acc ^^^ b) = ((List.range n).map b.getMsbD).foldl serialBit acc ^^^ (b <<< n) := by
  induction n generalizing acc b with
  | zero => simp [crc8Rounds]
  | succ n ih =>
    have htail : (List.range n).map (b <<< 1).getMsbD = (List.range n).map (b.getMsbD ∘ Nat.succ) :=
      List.map_congr_left fun k _ => BitVec.getMsbD_shiftLeft b 1
    calc crc8Rounds (n + 1) (acc ^^^ b)
      _ = crc8Rounds n (serialBit acc b.msb ^^^ (b <<< 1)) := by rw [crc8Rounds, crc8Round_xor_eq_serialBit]
      _ = ((List.range n).map (b <<< 1).getMsbD).foldl serialBit (serialBit acc b.msb) ^^^ (b <<< 1 <<< n) := ih _ _
      _ = ((List.range (n + 1)).map b.getMsbD).foldl serialBit acc ^^^ (b <<< (n + 1)) := by
        rw [htail, ← BitVec.shiftLeft_add, Nat.add_comm 1 n, List.range_succ_eq_map, List.map_cons, List.foldl_cons,
          List.map_map, BitVec.msb_eq_getMsbD_zero]

/-- After eight rounds no bit waits: one byte through the accumulator is its bits through the serial register. -/
theorem crc8Step_eq_foldl_serialBit (acc b : Byte) : crc8Step acc b = (bitsOfByte b).foldl serialBit acc := by
  rw [crc8Step, crc8Rounds_xor_eq_foldl_serialBit, BitVec.shiftLeft_eq_zero (Nat.le_refl 8), BitVec.xor_zero,
    bitsOfByte]

theorem crc8_eq_serialCrc (bs : Bytes) : crc8 bs = serialCrc bs := by
  have hstep : crc8Step = fun acc b => (bitsOfByte b).foldl serialBit acc :=
    funext₂ crc8Step_eq_foldl_serialBit
  rw [crc8, serialCrc, List.foldl_flatMap, hstep]

/-- CRC8 completes in every state with the checksum of its operand and writes nothing else (40_crc8 R91). -/
theorem exec_crc8 (bs : Bytes) (s : State) : exec (.crc8 bs) s = .next (s.answer (.byte (crc8 bs))) := rfl

/-- Settles O7: every byte is its eight bits through the serial register, most significant first. -/
theorem crc8AnswersTheBitSerialChecksum : Obligations.Crc8AnswersTheBitSerialChecksum := by
  intro bs s
  rw [exec_crc8, crc8_eq_serialCrc]

/-- The shift and the fed-back polynomial are both linear over XOR. -/
theorem crc8Round_xor (a b : Byte) : crc8Round (a ^^^ b) = crc8Round a ^^^ crc8Round b := by
  have hpoly : (if (a ^^^ b).msb then Config.poly else 0x00#8) =
      (if a.msb then Config.poly else 0x00#8) ^^^ (if b.msb then Config.poly else 0x00#8) := by
    rw [BitVec.msb_xor]
    cases a.msb <;> cases b.msb <;> decide
  rw [crc8Round_eq, crc8Round_eq a, crc8Round_eq b, hpoly, BitVec.shiftLeft_xor_distrib]
  ac_rfl

theorem crc8Rounds_xor (n : Nat) (a b : Byte) : crc8Rounds n (a ^^^ b) = crc8Rounds n a ^^^ crc8Rounds n b := by
  induction n generalizing a b with
  | zero => rfl
  | succ n ih => rw [crc8Rounds, crc8Round_xor, ih, crc8Rounds, crc8Rounds]

theorem crc8Step_xor (acc acc' b b' : Byte) :
    crc8Step (acc ^^^ acc') (b ^^^ b') = crc8Step acc b ^^^ crc8Step acc' b' := by
  have hswap : acc ^^^ acc' ^^^ (b ^^^ b') = (acc ^^^ b) ^^^ (acc' ^^^ b') := by ac_rfl
  rw [crc8Step, hswap, crc8Rounds_xor, crc8Step, crc8Step]

/-- From any two accumulators the bytewise XOR of two sequences of one length gives the XOR of their ends. -/
theorem foldl_crc8Step_zipWith_xor {s t : Bytes} (h : s.length = t.length) (acc acc' : Byte) :
    (List.zipWith (· ^^^ ·) s t).foldl crc8Step (acc ^^^ acc') =
      s.foldl crc8Step acc ^^^ t.foldl crc8Step acc' := by
  induction s generalizing t acc acc' with
  | nil =>
    obtain rfl := List.eq_nil_of_length_eq_zero h.symm
    rfl
  | cons b s ih =>
    obtain ⟨b', t, rfl⟩ := List.exists_cons_of_length_eq_add_one h.symm
    rw [List.zipWith_cons_cons, List.foldl_cons, crc8Step_xor]
    exact ih (Nat.succ.inj h) _ _

/-- Settles O10: the initial accumulator 0 is the XOR of two initial accumulators. -/
theorem crc8IsLinearOnEqualLengths : Obligations.Crc8IsLinearOnEqualLengths :=
  fun _ _ h => foldl_crc8Step_zipWith_xor h Config.crcInit Config.crcInit

/-- The polynomial is odd and the shift leaves the low bit clear, so the low bit tells whether it was fed back. -/
theorem crc8Round_getLsbD_zero (a : Byte) : (crc8Round a).getLsbD 0 = a.msb := by
  rw [crc8Round_eq, BitVec.getLsbD_xor, BitVec.getLsbD_shiftLeft]
  cases a.msb <;> rfl

/-- A byte is its high bit and what is left of it after a shift. -/
theorem eq_of_msb_eq_of_shiftLeft_one_eq {a b : Byte} (hmsb : a.msb = b.msb) (hshift : a <<< 1 = b <<< 1) :
    a = b := by
  refine BitVec.eq_of_getMsbD_eq fun i _ => ?_
  cases i with
  | zero => rwa [← BitVec.msb_eq_getMsbD_zero, ← BitVec.msb_eq_getMsbD_zero]
  | succ i => rw [← BitVec.getMsbD_shiftLeft, hshift, BitVec.getMsbD_shiftLeft]

theorem crc8Round_injective : Function.Injective crc8Round := by
  intro a b h
  have hmsb : a.msb = b.msb := by rw [← crc8Round_getLsbD_zero, h, crc8Round_getLsbD_zero]
  refine eq_of_msb_eq_of_shiftLeft_one_eq hmsb ?_
  rwa [crc8Round_eq, crc8Round_eq, hmsb, BitVec.xor_left_inj] at h

theorem crc8Rounds_injective (n : Nat) : Function.Injective (crc8Rounds n) := by
  induction n with
  | zero => exact Function.injective_id
  | succ n ih => exact ih.comp crc8Round_injective

/-- For one accumulator different bytes lead to different accumulators. -/
theorem crc8Step_injective (acc : Byte) : Function.Injective (crc8Step acc) := fun _ _ h =>
  (BitVec.xor_right_inj acc).1 (crc8Rounds_injective 8 h)

/-- For one byte different accumulators lead to different accumulators. -/
theorem crc8Step_injective_acc (b : Byte) : Function.Injective (crc8Step · b) := fun _ _ h =>
  (BitVec.xor_left_inj b).1 (crc8Rounds_injective 8 h)

/-- Two accumulators that differ differ after any bytes. -/
theorem foldl_crc8Step_injective (bs : Bytes) : Function.Injective (bs.foldl crc8Step) := by
  induction bs with
  | nil => exact Function.injective_id
  | cons b bs ih => exact ih.comp (crc8Step_injective_acc b)

/-- Settles O11: the two accumulators differ behind the changed byte, and so they stay. -/
theorem crc8DetectsEverySingleByteChange : Obligations.Crc8DetectsEverySingleByteChange := by
  intro pre post a b hne heq
  rw [crc8_append, crc8_append, List.foldl_cons, List.foldl_cons] at heq
  exact hne (crc8Step_injective _ (foldl_crc8Step_injective post heq))

/-- The table of the step is a permutation of the bytes, for every accumulator (40_crc8 R95 law 7). -/
theorem crc8Step_bijective (acc : Byte) : Function.Bijective (crc8Step acc) :=
  Finite.injective_iff_bijective.1 (crc8Step_injective acc)

/-- Settles O12: the last byte goes through a permutation. -/
theorem crc8LastByteReachesEveryValueOnce : Obligations.Crc8LastByteReachesEveryValueOnce := by
  intro pre v
  simp only [crc8_concat]
  exact (crc8Step_bijective (crc8 pre)).existsUnique v

/-- Settles O8: the operation answers the checksum, and that of no bytes is the initial accumulator. -/
theorem crc8OfNothingIsZero : Obligations.Crc8OfNothingIsZero := by
  refine ⟨crc8_nil, fun s => ?_⟩
  rw [exec_crc8, crc8_nil]

/-- A byte equal to the accumulator clears it. -/
theorem crc8Step_self (acc : Byte) : crc8Step acc acc = 0x00#8 := by
  rw [crc8Step, BitVec.xor_self]
  rfl

/-- Settles O9: the checksum byte at the end meets itself, the zero byte in front meets the initial accumulator 0. -/
theorem crc8OfMessageAndItsChecksumIsZero : Obligations.Crc8OfMessageAndItsChecksumIsZero := by
  intro bs
  constructor
  · rw [crc8_concat, crc8Step_self]
  · rw [crc8, List.foldl_cons, crc8Step_self, crc8]

end Sys2Proof.Machine
end

section
/-! SUPPORT. ENCODE against DECODE1 (spec/41_frame_encode.md R101, R106): what the decode step answers on a whole frame,
and that ENCODE's frame is one. -/

namespace Sys2Proof.Machine

/-- Once the whole frame is there and its header checksum matches, the payload checksum alone decides, and the bytes
after the frame are ignored (42_frame_decode R117, R118, R120). -/
theorem decode1_wholeFrame {lh ll ol pt hc : Byte} {data opt : Bytes} (hcrc : crc8 [lh, ll, ol, pt] = hc)
    (hdata : data.length = 256 * lh.toNat + ll.toNat) (hopt : opt.length = ol.toNat) (pc8 : Byte) (after : Bytes) :
    decode1 (Config.sync :: lh :: ll :: ol :: pt :: hc :: (data ++ opt ++ pc8 :: after)) =
      .ok (if crc8 (data ++ opt) = pc8 then .complete ⟨pt, data, opt⟩ (6 + data.length + opt.length + 1)
        else .invalid) := by
  have hdl : (dataLength lh ll).toNat = data.length := by rw [dataLength_toNat, hdata]
  have hlen : ¬ (data ++ opt ++ pc8 :: after).length + 6 < 6 + data.length + opt.length + 1 := by
    simp only [List.length_append, List.length_cons]
    omega
  have hpc8 : (data ++ opt ++ pc8 :: after).getD (data.length + opt.length) 0x00#8 = pc8 := by
    rw [← List.length_append, List.getD_append_right _ _ _ _ le_rfl, Nat.sub_self, List.getD_cons_zero]
  have hslices : slice (data ++ opt ++ pc8 :: after) 0 data.length = data ∧
      slice (data ++ opt ++ pc8 :: after) data.length (data.length + opt.length) = opt := by
    simp [slice_add]
  simp only [decode1_prefix, decodeBody, frameLength, hdl, ← hopt, hcrc, hlen, hpc8, hslices, ne_eq, not_true, ite_not,
    if_false]

/-- ENCODE's frame is whole: its header gives the lengths of its data and optional data, and both its checksums match
(41_frame_encode R106). -/
theorem decode1_frameOf_append {data opt : Bytes} (hdata : data.length ≤ 65535) (hopt : opt.length ≤ 255) (pt : Byte)
    (after : Bytes) :
    decode1 (frameOf pt data opt ++ after) = .ok (.complete ⟨pt, data, opt⟩ (frameOf pt data opt).length) := by
  have hdl : (BitVec.ofNat 16 data.length).toNat = data.length := Nat.mod_eq_of_lt (by omega)
  have hdata' : data.length = 256 * (highByte (BitVec.ofNat 16 data.length)).toNat +
      (lowByte (BitVec.ofNat 16 data.length)).toNat := by
    rw [highByte_toNat, lowByte_toNat, hdl, Nat.div_add_mod]
  have hopt' : opt.length = (BitVec.ofNat 8 opt.length).toNat := (Nat.mod_eq_of_lt (by omega)).symm
  have hwhole := decode1_wholeFrame (pt := pt) rfl hdata' hopt' (crc8 (data ++ opt)) after
  rw [if_pos rfl] at hwhole
  rw [frameOf_length, frameOf_eq_cons, headerBytes, ← hwhole]
  simp

/-- Settles O15: within the limits ENCODE answers `frameOf`, and the decode step takes that frame apart. -/
theorem encodedFrameDecodesToItsPacket : Obligations.EncodedFrameDecodesToItsPacket := by
  intro pt data opt after s hdata hopt
  exact ⟨frameOf pt data opt, exec_encode_of_le hdata hopt pt s,
    exec_decode1_of_ok (decode1_frameOf_append hdata hopt pt after) s⟩

/-- Settles O14: beyond the limits ENCODE answers the error, within them a frame, which is another result. -/
theorem encodeFailsExactlyOnOverlongOperands : Obligations.EncodeFailsExactlyOnOverlongOperands := by
  intro pt data opt s
  refine ⟨fun herr => ?_, fun hover => exec_encode_of_overlong hover pt s⟩
  by_contra hwithin
  rw [exec_encode_of_le (by omega) (by omega), Host.Outcome.next.injEq] at herr
  have hresult := congrArg (·.result) herr
  simp at hresult

end Sys2Proof.Machine
end

section
/-! SUPPORT. DECODE1 test by test (spec/42_frame_decode.md R112 to R118): the operand has one of six shapes, each with
its answer; a `Complete` is ENCODE's frame with bytes after it, and later bytes change no answer but `Incomplete`. -/

namespace Sys2Proof.Machine

theorem exec_decode1_eq_refused_iff (b : Bytes) (s : State) :
    exec (.decode1 b) s = .refused .noSync ↔ decode1 b = .error .noSync := by
  cases h : decode1 b with
  | ok v => simp [exec_decode1_of_ok h]
  | error e =>
    obtain ⟨rfl, -⟩ := decode1_error h
    simp [exec_decode1_of_error h]

/-- The header is judged before the frame is all there (42_frame_decode R115). -/
theorem decode1_badHeader {lh ll ol pt hc : Byte} (hcrc : crc8 [lh, ll, ol, pt] ≠ hc) (body : Bytes) :
    decode1 (Config.sync :: lh :: ll :: ol :: pt :: hc :: body) = .ok .invalid := by
  rw [decode1_prefix, decodeBody, if_pos hcrc]

/-- Behind a good header the frame waits while bytes are missing (42_frame_decode R116). -/
theorem decode1_unfinished {lh ll ol pt hc : Byte} {body : Bytes} (hcrc : crc8 [lh, ll, ol, pt] = hc)
    (hlen : body.length + 6 < frameLength (dataLength lh ll) ol) :
    decode1 (Config.sync :: lh :: ll :: ol :: pt :: hc :: body) = .ok .incomplete := by
  rw [decode1_prefix, decodeBody, if_neg (not_not_intro hcrc), if_pos hlen]

/-- What DECODE1 can find in its operand, in the order of its tests (42_frame_decode R110). -/
inductive Decode1Shape : Bytes → Prop where
  | empty : Decode1Shape []
  | noSync {b0 : Byte} (rest : Bytes) (hne : b0 ≠ Config.sync) : Decode1Shape (b0 :: rest)
  | short {rest : Bytes} (hlen : rest.length < 5) : Decode1Shape (Config.sync :: rest)
  | badHeader {lh ll ol pt hc : Byte} (body : Bytes) (hcrc : crc8 [lh, ll, ol, pt] ≠ hc) :
      Decode1Shape (Config.sync :: lh :: ll :: ol :: pt :: hc :: body)
  | unfinished {lh ll ol pt hc : Byte} {body : Bytes} (hcrc : crc8 [lh, ll, ol, pt] = hc)
      (hlen : body.length + 6 < frameLength (dataLength lh ll) ol) :
      Decode1Shape (Config.sync :: lh :: ll :: ol :: pt :: hc :: body)
  | whole {lh ll ol pt hc : Byte} {data opt : Bytes} (pc8 : Byte) (after : Bytes)
      (hcrc : crc8 [lh, ll, ol, pt] = hc) (hdata : data.length = 256 * lh.toNat + ll.toNat)
      (hopt : opt.length = ol.toNat) :
      Decode1Shape (Config.sync :: lh :: ll :: ol :: pt :: hc :: (data ++ opt ++ pc8 :: after))

/-- A sequence longer than two fields is the two fields, one byte and the rest. -/
theorem exists_eq_fields_append {body : Bytes} {m k : Nat} (h : m + k < body.length) :
    ∃ (data opt : Bytes) (pc8 : Byte) (after : Bytes),
      body = data ++ opt ++ pc8 :: after ∧ data.length = m ∧ opt.length = k := by
  refine ⟨body.take m, (body.drop m).take k, body[m + k], body.drop (m + k + 1), ?_, ?_, ?_⟩
  · rw [← List.take_add, List.getElem_cons_drop, List.take_append_drop]
  · rw [List.length_take]
    omega
  · rw [List.length_take, List.length_drop]
    omega

/-- Every operand has one of the shapes. -/
theorem decode1Shape (b : Bytes) : Decode1Shape b := by
  match b with
  | [] => exact .empty
  | b0 :: rest =>
    by_cases hs : b0 = Config.sync
    case neg => exact .noSync rest hs
    subst hs
    match rest with
    | [] | [_] | [_, _] | [_, _, _] | [_, _, _, _] => exact .short (by simp)
    | lh :: ll :: ol :: pt :: hc :: body =>
      by_cases hcrc : crc8 [lh, ll, ol, pt] = hc
      case neg => exact .badHeader body hcrc
      by_cases hlen : body.length + 6 < frameLength (dataLength lh ll) ol
      case pos => exact .unfinished hcrc hlen
      rw [frameLength_eq] at hlen
      have hfields : 256 * lh.toNat + ll.toNat + ol.toNat < body.length := by omega
      obtain ⟨data, opt, pc8, after, rfl, hdata, hopt⟩ := exists_eq_fields_append hfields
      exact .whole pc8 after hcrc hdata hopt

/-- The header bytes of a frame are the bytes that give its lengths (30_encoding R65, R66). -/
theorem headerBytes_dataLength (lh ll ol pt : Byte) : headerBytes (dataLength lh ll) ol pt = [lh, ll, ol, pt] := by
  have hll := ll.isLt
  have hhigh : highByte (dataLength lh ll) = lh := BitVec.eq_of_toNat_eq (by
    rw [highByte_toNat, dataLength_toNat]
    omega)
  have hlow : lowByte (dataLength lh ll) = ll := BitVec.eq_of_toNat_eq (by
    rw [lowByte_toNat, dataLength_toNat]
    omega)
  rw [headerBytes, hhigh, hlow]

/-- A frame written with the length bytes that its fields have (30_encoding R60). -/
theorem frameOf_eq_of_lengths {lh ll ol : Byte} {data opt : Bytes} (hdata : data.length = 256 * lh.toNat + ll.toNat)
    (hopt : opt.length = ol.toNat) (pt : Byte) :
    frameOf pt data opt =
      Config.sync :: lh :: ll :: ol :: pt :: crc8 [lh, ll, ol, pt] :: (data ++ opt ++ [crc8 (data ++ opt)]) := by
  have hdl : BitVec.ofNat 16 data.length = dataLength lh ll := by
    rw [hdata, ← dataLength_toNat, BitVec.ofNat_toNat, BitVec.setWidth_eq]
  have hol : BitVec.ofNat 8 opt.length = ol := by rw [hopt, BitVec.ofNat_toNat, BitVec.setWidth_eq]
  simp [frameOf, hdl, hol, headerBytes_dataLength]

/-- A `Complete` operand is the packet's frame with bytes after it, and the count is the frame's length
(42_frame_decode R118). -/
theorem decode1_complete_eq_frameOf_append {b : Bytes} {p : Packet} {n : Nat} (h : decode1 b = .ok (.complete p n)) :
    ∃ after, b = frameOf p.packetType p.data p.opt ++ after ∧ n = (frameOf p.packetType p.data p.opt).length := by
  cases decode1Shape b with
  | empty => cases h
  | noSync rest hne => cases (decode1_of_ne_sync rest hne).symm.trans h
  | short hlen => cases (decode1_short hlen).symm.trans h
  | badHeader body hcrc => cases (decode1_badHeader hcrc body).symm.trans h
  | unfinished hcrc hlen => cases (decode1_unfinished hcrc hlen).symm.trans h
  | whole pc8 after hcrc hdata hopt =>
    rw [decode1_wholeFrame hcrc hdata hopt] at h
    split at h
    · rename_i hpc8
      cases h
      refine ⟨after, ?_, (frameOf_length _ _ _).symm⟩
      simp [frameOf_eq_of_lengths hdata hopt, hcrc, hpc8]
    · cases h

/-- Settles O16: the decoded bytes are the packet's frame, which is what ENCODE answers. -/
theorem decodedPacketEncodesToItsBytes : Obligations.DecodedPacketEncodesToItsBytes := by
  intro b p n s h
  rw [exec_decode1_eq_next_iff] at h
  obtain ⟨hwf, -⟩ := decode1_complete_wf h
  obtain ⟨hdata, hopt⟩ := (Packet.wf_iff p).1 hwf
  obtain ⟨after, rfl, rfl⟩ := decode1_complete_eq_frameOf_append h
  exact ⟨hwf, by rw [exec_encode_of_le hdata hopt, List.take_left]⟩

/-- Later bytes change no answer but `Incomplete`: every other shape keeps what its test looked at (42_frame_decode
R121). -/
theorem decode1_append_of_ne_incomplete {b : Bytes} (h : decode1 b ≠ .ok .incomplete) (later : Bytes) :
    decode1 (b ++ later) = decode1 b := by
  cases decode1Shape b with
  | empty => exact absurd rfl h
  | noSync rest hne => rw [List.cons_append, decode1_of_ne_sync _ hne, decode1_of_ne_sync _ hne]
  | short hlen => exact absurd (decode1_short hlen) h
  | badHeader body hcrc => simp only [List.cons_append, decode1_badHeader hcrc]
  | unfinished hcrc hlen => exact absurd (decode1_unfinished hcrc hlen) h
  | whole pc8 after hcrc hdata hopt =>
    simp only [List.cons_append, List.append_assoc _ (pc8 :: after) later, decode1_wholeFrame hcrc hdata hopt]

/-- Settles O23: a verdict other than `Incomplete` and the refusal are answers that later bytes leave alone. -/
theorem decode1VerdictsSurviveGrowth : Obligations.Decode1VerdictsSurviveGrowth := by
  intro b later s
  constructor
  · intro v hv h
    rw [exec_decode1_eq_next_iff] at h ⊢
    rw [decode1_append_of_ne_incomplete (by simp [h, hv]), h]
  · intro h
    rw [exec_decode1_eq_refused_iff] at h ⊢
    rw [decode1_append_of_ne_incomplete (by simp [h]), h]

/-- Settles O24: another first byte is refused, and `decode1_incomplete_length` is the bound. -/
theorem decode1IncompleteIsBounded : Obligations.Decode1IncompleteIsBounded := by
  intro b s h
  rw [exec_decode1_eq_next_iff] at h
  cases b with
  | nil => exact .inl rfl
  | cons b0 rest =>
    refine .inr ⟨?_, decode1_incomplete_length h⟩
    by_contra hhead
    have hne : b0 ≠ Config.sync := fun hs => hhead (congrArg some hs)
    cases (decode1_of_ne_sync rest hne).symm.trans h

/-- Settles O17: the one error of the decode step is `NoSync`, on the first byte alone. -/
theorem decode1IsRefusedExactlyWithoutSync : Obligations.Decode1IsRefusedExactlyWithoutSync := by
  intro b s
  refine ⟨?_, exec_decode1_of_ok decode1_nil s⟩
  rw [exec_decode1_eq_refused_iff]
  constructor
  · intro h
    exact (decode1_error h).2
  · rintro ⟨b0, rest, rfl, hne⟩
    exact decode1_of_ne_sync rest hne

/-- Settles O18: at most four bytes after the sync byte are too few for the header and its checksum. -/
theorem decode1ShortBufferIsIncomplete : Obligations.Decode1ShortBufferIsIncomplete :=
  fun _ s hlen => exec_decode1_of_ok (decode1_short (Nat.lt_succ_of_le hlen)) s

/-- Settles O19: the header checksum is tested before anything behind it. -/
theorem decode1BadHeaderIsInvalid : Obligations.Decode1BadHeaderIsInvalid :=
  fun _ _ _ _ _ after s hcrc => exec_decode1_of_ok (decode1_badHeader hcrc after) s

/-- Settles O20: `decodeBody_incomplete` one way, `decode1_unfinished` the other. -/
theorem decode1UnfinishedFrameIsIncomplete : Obligations.Decode1UnfinishedFrameIsIncomplete := by
  intro lh ll ol pt hc body s hcrc
  have hframe := frameLength_eq lh ll ol
  rw [exec_decode1_eq_next_iff]
  constructor
  · intro h
    have hlen := decodeBody_incomplete (Except.ok.inj h)
    simp only [List.length_cons] at hlen
    omega
  · intro hlen
    exact decode1_unfinished hcrc (by omega)

/-- Settles O21: of a whole frame the payload checksum decides, here against it. -/
theorem decode1BadPayloadIsInvalid : Obligations.Decode1BadPayloadIsInvalid := by
  intro lh ll ol pt hc pc8 data opt after s hcrc hdata hopt hpc8
  exact exec_decode1_of_ok ((decode1_wholeFrame hcrc hdata hopt pc8 after).trans (by rw [if_neg hpc8])) s

/-- Settles O22: of a whole frame the payload checksum decides, here for it. -/
theorem decode1GoodFrameIsComplete : Obligations.Decode1GoodFrameIsComplete := by
  intro lh ll ol pt hc data opt after s hcrc hdata hopt
  exact exec_decode1_of_ok ((decode1_wholeFrame hcrc hdata hopt _ after).trans (by rw [if_pos rfl])) s

end Sys2Proof.Machine
end

section
/-! SUPPORT. DRAIN pass by pass (spec/43_stream_parser.md R128 to R132, R135): what each pass does with the bytes in
front of the buffer, and what DRAIN leaves there. -/

namespace Sys2Proof.Machine

/-- DRAIN hands over what `drainBuf` extracts and keeps what it leaves, and writes nothing else. -/
theorem exec_drain_of_eq {s : State} {ps : List Packet} {kept : Bytes} (h : drainBuf s.buf = (ps, kept)) :
    exec .drain s = .next { s with buf := kept, result := some (.packets ps) } := by
  rw [exec_drain, h]
  rfl

/-- DRAIN does the same on two buffers from which the same is extracted and left. -/
theorem exec_drain_congr {s : State} {b : Bytes} (h : drainBuf s.buf = drainBuf b) :
    exec .drain s = exec .drain { s with buf := b } := by
  rw [exec_drain, h]
  rfl

/-- Without a sync byte everything is discarded (43_stream_parser R128). -/
theorem drainBuf_of_noise {b : Bytes} (h : Noise b) : drainBuf b = ([], []) := by
  rw [drainBuf_eq, (find_eq_none_iff _ _).2 h]

/-- On `Invalid` the sync byte goes (43_stream_parser R130). -/
theorem drainBuf_of_invalid {rest : Bytes} (h : decode1 (Config.sync :: rest) = .ok .invalid) :
    drainBuf (Config.sync :: rest) = drainBuf rest := by
  rw [drainBuf_sync, h]

/-- On `Incomplete` everything stays (43_stream_parser R131). -/
theorem drainBuf_of_incomplete {rest : Bytes} (h : decode1 (Config.sync :: rest) = .ok .incomplete) :
    drainBuf (Config.sync :: rest) = ([], Config.sync :: rest) := by
  rw [drainBuf_sync, h]

/-- On `Complete` the frame goes and its packet comes first (43_stream_parser R132). -/
theorem drainBuf_of_complete {b : Bytes} {p : Packet} {n : Nat} (h : decode1 b = .ok (.complete p n)) :
    drainBuf b = (p :: (drainBuf (b.drop n)).1, (drainBuf (b.drop n)).2) := by
  obtain ⟨lh, ll, ol, hc, body, rfl, -⟩ := decode1_complete h
  rw [drainBuf_sync, h]

/-- What DRAIN may leave: nothing, or a frame that waits for its bytes (43_stream_parser R135). -/
def EmptyOrWaiting (b : Bytes) : Prop := b = [] ∨ ∃ rest, b = Config.sync :: rest ∧ decode1 b = .ok .incomplete

theorem drainBuf_emptyOrWaiting (b : Bytes) : EmptyOrWaiting (drainBuf b).2 :=
  drainBuf_induction (P := fun _ r => EmptyOrWaiting r.2)
    (noise := fun _ _ => .inl rfl)
    (discard := fun _ _ _ _ _ ih => ih)
    (invalid := fun _ _ _ ih => ih)
    (incomplete := fun rest h => .inr ⟨rest, rfl, h⟩)
    (complete := fun _ _ _ _ _ ih => ih) b

/-- DRAIN finds nothing in what a DRAIN has left, and leaves it. -/
theorem EmptyOrWaiting.drainBuf_eq {b : Bytes} (h : EmptyOrWaiting b) : drainBuf b = ([], b) := by
  rcases h with rfl | ⟨rest, rfl, hinc⟩
  · exact drainBuf_nil
  · exact drainBuf_of_incomplete hinc

/-- Settles O33: a `Complete` pass removes the frame, and the rest of both results is DRAIN's on what is left. -/
theorem drainConsumesACompleteFrame : Obligations.DrainConsumesACompleteFrame := by
  intro s p n h
  rw [exec_decode1_eq_next_iff] at h
  exact ⟨_, _, exec_drain_of_eq rfl, exec_drain_of_eq (drainBuf_of_complete h)⟩

/-- Settles O34: `EmptyOrWaiting` holds of what DRAIN leaves and stops the next DRAIN. -/
theorem drainEndsEmptyOrWaiting : Obligations.DrainEndsEmptyOrWaiting := by
  intro s
  have hkept : EmptyOrWaiting (drainBuf s.buf).2 := drainBuf_emptyOrWaiting s.buf
  refine ⟨_, _, exec_drain_of_eq rfl, ?_, exec_drain_of_eq hkept.drainBuf_eq⟩
  rcases hkept with hnil | ⟨rest, hsync, hinc⟩
  · exact .inl hnil
  · exact .inr ⟨congrArg List.head? hsync, drainBuf_length_le s.buf, exec_decode1_of_ok hinc s⟩

/-- Settles O29: the pass without a sync byte. -/
theorem drainDiscardsABufferWithoutSync : Obligations.DrainDiscardsABufferWithoutSync :=
  fun _ h => exec_drain_of_eq (drainBuf_of_noise h)

/-- Settles O30: noise in front changes nothing of what is extracted and left. -/
theorem drainDiscardsNoiseBeforeSync : Obligations.DrainDiscardsNoiseBeforeSync := by
  intro s pre rest hpre hbuf
  have hdrain : drainBuf s.buf = drainBuf (Config.sync :: rest) := by
    rw [hbuf, drainBuf_append_of_not_mem _ hpre]
  refine ⟨exec_drain_congr hdrain, fun hinc => ?_⟩
  rw [exec_decode1_eq_next_iff] at hinc
  exact exec_drain_of_eq (hdrain.trans (drainBuf_of_incomplete hinc))

/-- Settles O31: the `Invalid` pass. -/
theorem drainDropsOneByteOnInvalid : Obligations.DrainDropsOneByteOnInvalid := by
  intro s rest hbuf hinv
  rw [exec_decode1_eq_next_iff, hbuf] at hinv
  exact exec_drain_congr (by rw [hbuf, drainBuf_of_invalid hinv])

/-- Settles O32: the `Incomplete` pass leaves the buffer that it found. -/
theorem drainStopsOnIncomplete : Obligations.DrainStopsOnIncomplete := by
  intro s rest hbuf hinc
  rw [exec_decode1_eq_next_iff, hbuf] at hinc
  have hdrain : drainBuf s.buf = ([], s.buf) := by rw [hbuf, drainBuf_of_incomplete hinc]
  exact exec_drain_of_eq hdrain

/-- An operation whose result is `done` hands over no packet: the run is that of the operations after it. -/
theorem runOpsBy_cons_of_done {perform : Instr → State → Host.Outcome State Fault Refusal} {i : Instr} {s t : State}
    (h : perform i s = .next t) (hdone : t.result = some .done) (is : List Instr) :
    runOpsBy perform (i :: is) s = runOpsBy perform is t := by
  rw [runOpsBy_cons_of_next h, hdone]
  exact Option.map_id' (x := runOpsBy perform is t)

/-- Settles O41: RESET clears `BUF`, and DRAIN finds no packet in an empty buffer. -/
theorem resetEmptiesTheBuffer : Obligations.ResetEmptiesTheBuffer := by
  intro s
  refine ⟨exec_reset s, ?_⟩
  rw [runOps, runOpsBy_cons_of_done (exec_reset s) rfl, runOpsBy_cons_of_next (exec_drain_of_eq drainBuf_nil)]
  rfl

end Sys2Proof.Machine
end

section
/-! SUPPORT. FEED (spec/43_stream_parser.md R125, R126, R143): it appends, and a finite capacity judges two chunks in a
row as it judges their concatenation. -/

namespace Sys2Proof.Machine

/-- Settles O26: FEED writes `BUF` with the chunk appended, and `Memory.byteAt_append` reads it. -/
theorem feedAppendsTheChunk : Obligations.FeedAppendsTheChunk := by
  intro chunk s
  refine ⟨_, exec_feed chunk s, rfl, rfl, ?_, fun off hoff => ?_, fun k _ => ?_⟩
  · exact List.length_append
  · exact (Memory.byteAt_append s.buf chunk off).trans (if_pos hoff)
  · refine (Memory.byteAt_append s.buf chunk _).trans ?_
    rw [if_neg (by omega), Nat.add_sub_cancel_left]

/-- A chunk fits where the capacity holds it together with `BUF`. -/
theorem fits_of_holds {params : Config} {buf chunk : Bytes} (h : params.Holds (buf.length + chunk.length)) :
    fits params.bufCap buf chunk = true :=
  (fits_iff _ _ _).2 h

/-- FEED with parameters given is refused exactly when the chunk does not fit. -/
theorem execWith_feed_refused_iff (params : Config) (chunk : Bytes) (s : State) :
    execWith params (.feed chunk) s = .refused .bufferOverflow ↔ fits params.bufCap s.buf chunk = false := by
  cases hfit : fits params.bufCap s.buf chunk with
  | true => simp [execWith_feed_of_fits hfit, exec_feed]
  | false => simp [execWith_feed_of_not_fits hfit]

/-- Settles O27: FEED is refused exactly when the chunk does not fit. -/
theorem feedIsRefusedExactlyOnOverflow : Obligations.FeedIsRefusedExactlyOnOverflow := fun params chunk s =>
  ⟨(execWith_feed_refused_iff params chunk s).trans (fits_eq_false_iff _ _ _),
    fun hholds => execWith_feed_of_fits (fits_of_holds hholds)⟩

/-- Two chunks in a row fit exactly when their concatenation does. -/
theorem fits_append (cap : Option Nat) (buf c1 c2 : Bytes) :
    fits cap buf (c1 ++ c2) = (fits cap buf c1 && fits cap (buf ++ c1) c2) := by
  cases cap with
  | none => rfl
  | some n =>
    rw [Bool.eq_iff_iff, Bool.and_eq_true]
    simp only [fits, List.length_append, decide_eq_true_eq]
    omega

/-- FEED of a chunk that fits runs on with the chunk appended and no packet handed over. -/
theorem runOpsWith_feed_of_fits {params : Config} {chunk : Bytes} {s : State}
    (h : fits params.bufCap s.buf chunk = true) (is : List Instr) :
    runOpsWith params (.feed chunk :: is) s = runOpsWith params is ((s.setBuf (s.buf ++ chunk)).answer .done) :=
  runOpsBy_cons_of_done ((execWith_feed_of_fits h).trans (exec_feed chunk s)) rfl is

/-- FEED of a chunk that does not fit ends the run. -/
theorem runOpsWith_feed_of_not_fits {params : Config} {chunk : Bytes} {s : State}
    (h : fits params.bufCap s.buf chunk = false) (is : List Instr) :
    runOpsWith params (.feed chunk :: is) s = none := by
  rw [runOpsWith, runOpsBy, execWith_feed_of_not_fits h]

/-- Two FEEDs in a row are one of the concatenation, with every capacity (43_stream_parser R126). -/
theorem runOpsWith_feed_feed (params : Config) (c1 c2 : Bytes) (s : State) :
    runOpsWith params [.feed c1, .feed c2] s = runOpsWith params [.feed (c1 ++ c2)] s := by
  have happend := fits_append params.bufCap s.buf c1 c2
  cases h1 : fits params.bufCap s.buf c1 with
  | false =>
    rw [h1, Bool.false_and] at happend
    rw [runOpsWith_feed_of_not_fits h1, runOpsWith_feed_of_not_fits happend]
  | true =>
    rw [h1, Bool.true_and] at happend
    rw [runOpsWith_feed_of_fits h1]
    cases h2 : fits params.bufCap (s.buf ++ c1) c2 with
    | false => rw [runOpsWith_feed_of_not_fits h2, runOpsWith_feed_of_not_fits (happend.trans h2)]
    | true =>
      rw [runOpsWith_feed_of_fits h2, runOpsWith_feed_of_fits (happend.trans h2), ← List.append_assoc]
      rfl

/-- FEED of no bytes leaves `BUF` as it was. -/
theorem exec_feed_nil (s : State) : exec (.feed []) s = .next (s.answer .done) := by
  rw [exec_feed, Memory.append_eq, List.append_nil]
  rfl

/-- Settles O28: the machine is the one with the default parameters, and with any parameters `fits_append` says that
both sides are refused together. -/
theorem consecutiveFeedsConcatenate : Obligations.ConsecutiveFeedsConcatenate := by
  intro c1 c2 s
  refine ⟨?_, exec_feed_nil s, fun params => ⟨runOpsWith_feed_feed params c1 c2 s, fun hholds => ?_⟩⟩
  · have hdefault := runOpsWith_feed_feed Config.default c1 c2 s
    rwa [runOpsWith, execWith_default] at hdefault
  · exact (execWith_feed_of_fits (fits_of_holds hholds)).trans (exec_feed_nil s)

end Sys2Proof.Machine
end

section
/-! SUPPORT. Where the bytes of a drained buffer go (spec/43_stream_parser.md R136, R138): each is discarded, part of a
returned packet's frame, or kept, in the order in which it stood. -/

namespace Sys2Proof.Machine

@[simp] theorem streamOf_nil : streamOf [] = [] := rfl

@[simp] theorem streamOf_cons (gap : Bytes) (p : Packet) (items : List (Bytes × Packet)) :
    streamOf ((gap, p) :: items) = gap ++ (frameOfPacket p ++ streamOf items) := by
  simp [streamOf]

theorem frameOfPacket_length (p : Packet) : (frameOfPacket p).length = 6 + p.data.length + p.opt.length + 1 :=
  frameOf_length _ _ _

/-- Seven bytes at least for each frame (30_encoding R61). -/
theorem seven_mul_length_le_streamOf_length (items : List (Bytes × Packet)) :
    7 * items.length ≤ (streamOf items).length := by
  induction items with
  | nil => exact Nat.le_refl 0
  | cons item items ih =>
    obtain ⟨gap, p⟩ := item
    simp only [streamOf_cons, List.length_append, List.length_cons, frameOfPacket_length]
    omega

/-- The bytes `b` are, in order, the frames of the packets with discarded bytes before each, discarded bytes, and the
bytes kept. -/
def AccountsFor (b : Bytes) (r : List Packet × Bytes) : Prop :=
  ∃ (items : List (Bytes × Packet)) (last : Bytes), items.map Prod.snd = r.1 ∧ b = streamOf items ++ last ++ r.2

/-- Further bytes may be discarded in front. -/
theorem AccountsFor.discard {b : Bytes} {r : List Packet × Bytes} (pre : Bytes) (h : AccountsFor b r) :
    AccountsFor (pre ++ b) r := by
  obtain ⟨items, last, hps, rfl⟩ := h
  cases items with
  | nil => exact ⟨[], pre ++ last, hps, by simp⟩
  | cons item items =>
    obtain ⟨gap, p⟩ := item
    exact ⟨(pre ++ gap, p) :: items, last, hps, by simp⟩

/-- A frame may stand in front, its packet the first. -/
theorem AccountsFor.frame {b : Bytes} {r : List Packet × Bytes} (p : Packet) (h : AccountsFor b r) :
    AccountsFor (frameOfPacket p ++ b) (p :: r.1, r.2) := by
  obtain ⟨items, last, hps, rfl⟩ := h
  exact ⟨([], p) :: items, last, by simp [hps], by simp⟩

/-- DRAIN accounts for every byte: a pass discards bytes, takes a frame, or keeps the rest. -/
theorem drainBuf_accountsFor (b : Bytes) : AccountsFor b (drainBuf b) :=
  drainBuf_induction (P := AccountsFor)
    (noise := fun b _ => ⟨[], b, rfl, by simp⟩)
    (discard := fun pre _ _ _ _ ih => ih.discard pre)
    (invalid := fun _ _ _ ih => ih.discard [Config.sync])
    (incomplete := fun _ _ => ⟨[], [], rfl, rfl⟩)
    (complete := fun _ p _ _ h ih => by
      obtain ⟨after, hb, rfl⟩ := decode1_complete_eq_frameOf_append h
      rw [hb, List.drop_left] at ih
      rw [hb]
      exact ih.frame p) b

/-- Settles O35: `AccountsFor` gives the gaps, and its frames take seven bytes each. -/
theorem drainAccountsForEveryByte : Obligations.DrainAccountsForEveryByte := by
  intro s t ps hexec hres
  obtain rfl := Host.Outcome.next.inj ((exec_drain s).symm.trans hexec)
  obtain rfl : (drainBuf s.buf).1 = ps := by simpa using hres
  obtain ⟨items, last, hps, hbuf⟩ := drainBuf_accountsFor s.buf
  have hcount : 7 * (drainBuf s.buf).1.length + (drainBuf s.buf).2.length ≤ s.buf.length := by
    have hseven := seven_mul_length_le_streamOf_length items
    have hlen := congrArg List.length hbuf
    have hitems : (drainBuf s.buf).1.length = items.length := by rw [← hps, List.length_map]
    simp only [List.length_append] at hlen
    omega
  refine ⟨⟨items.map Prod.fst, last, ?_, ?_⟩, hcount, fun params k hmax hshort m hm => ?_⟩
  · rw [← hps, List.length_map, List.length_map]
  · rw [← hps, ← List.zip_of_prod rfl rfl]
    exact hbuf
  · obtain rfl : k = m := Option.some.inj (hmax.symm.trans hm)
    omega

end Sys2Proof.Machine
end

section
/-! SUPPORT. DRAIN and the chunks (spec/43_stream_parser.md R137, R142): draining early and going on with what is left
is draining late, so a run of FEEDs and DRAINs ends as one DRAIN of the whole stream does. -/

namespace Sys2Proof.Machine

/-- A verdict other than `Incomplete` stays when more bytes come (42_frame_decode R121). -/
theorem decode1_append_of_eq_ok {b : Bytes} {v : Verdict} (h : decode1 b = .ok v) (hv : v ≠ .incomplete)
    (later : Bytes) : decode1 (b ++ later) = .ok v :=
  (decode1_append_of_ne_incomplete (by simp [h, hv]) later).trans h

/-- DRAIN may run before more bytes come: the packets of both rounds are those of one, and so is what is left
(43_stream_parser R137). Only `Incomplete` looks past the bytes that are there, and it keeps them all. -/
theorem drainBuf_append (b later : Bytes) :
    drainBuf (b ++ later) =
      ((drainBuf b).1 ++ (drainBuf ((drainBuf b).2 ++ later)).1, (drainBuf ((drainBuf b).2 ++ later)).2) :=
  drainBuf_induction
    (P := fun b r => drainBuf (b ++ later) = (r.1 ++ (drainBuf (r.2 ++ later)).1, (drainBuf (r.2 ++ later)).2))
    (noise := fun _ h => drainBuf_append_of_not_mem later h)
    (discard := fun _ _ _ h _ ih => by rw [List.append_assoc, drainBuf_append_of_not_mem _ h, ih])
    (invalid := fun _ _ h ih => (drainBuf_of_invalid (decode1_append_of_eq_ok h nofun later)).trans ih)
    (incomplete := fun _ _ => rfl)
    (complete := fun _ _ _ _ h ih => by
      have hn := (decode1_complete_length h).2.2
      rw [drainBuf_of_complete (decode1_append_of_eq_ok h nofun later), List.drop_append_of_le_length hn, ih,
        List.cons_append]) b

@[simp] theorem fedBytes_nil : fedBytes [] = [] := rfl
@[simp] theorem fedBytes_feed (chunk : Bytes) (ops : List Instr) :
    fedBytes (.feed chunk :: ops) = chunk ++ fedBytes ops := rfl
@[simp] theorem fedBytes_drain (ops : List Instr) : fedBytes (.drain :: ops) = fedBytes ops := rfl

/-- The state after a DRAIN. -/
def State.drained (s : State) : State := (s.setBuf (drainBuf s.buf).2).answer (.packets (drainBuf s.buf).1)

@[simp] theorem State.drained_buf (s : State) : s.drained.buf = (drainBuf s.buf).2 := rfl

/-- A DRAIN hands over its packets before those of the operations after it. -/
theorem runOps_drain_cons (is : List Instr) (s : State) :
    runOps (.drain :: is) s = (runOps is s.drained).map fun r => (r.1, (drainBuf s.buf).1 ++ r.2) :=
  runOpsBy_cons_of_next (exec_drain s) is

/-- FEEDs and DRAINs in any order with a DRAIN at the end hand over the packets of one DRAIN of the whole stream and
leave what it leaves. -/
theorem runOps_feeds_drains {ops : List Instr} (hops : ∀ i ∈ ops, isFeedOrDrain i = true) (s : State) :
    ∃ t, runOps (ops ++ [.drain]) s = some (t, (drainBuf (s.buf ++ fedBytes ops)).1) ∧
      t.buf = (drainBuf (s.buf ++ fedBytes ops)).2 := by
  induction ops generalizing s with
  | nil =>
    rw [List.nil_append, runOps_drain_cons, fedBytes_nil, List.append_nil]
    exact ⟨s.drained, by simp [runOpsBy], rfl⟩
  | cons i ops ih =>
    obtain ⟨hi, hrest⟩ := List.forall_mem_cons.1 hops
    cases i with
    | feed chunk =>
      rw [fedBytes_feed, ← List.append_assoc, List.cons_append, runOps, runOpsBy_cons_of_done (exec_feed chunk s) rfl]
      exact ih hrest ((s.setBuf (s.buf.append chunk)).answer .done)
    | drain =>
      obtain ⟨t, hrun, hbuf⟩ := ih hrest s.drained
      rw [fedBytes_drain, drainBuf_append, List.cons_append, runOps_drain_cons, hrun]
      exact ⟨t, rfl, hbuf⟩
    | crc8 | encode | decode1 | reset | rorg | senderid | status | esp3FramePrefix => cases hi

/-- One FEED and one DRAIN: what is extracted from `BUF` and the chunk is handed over, the rest is left. -/
theorem runOps_feed_drain {s : State} {stream kept : Bytes} {ps : List Packet}
    (h : drainBuf (s.buf ++ stream) = (ps, kept)) :
    ∃ t, runOps [.feed stream, .drain] s = some (t, ps) ∧ t.buf = kept := by
  obtain ⟨t, hrun, hbuf⟩ := runOps_feeds_drains (ops := [.feed stream]) (by simp [isFeedOrDrain]) s
  simp only [fedBytes_feed, fedBytes_nil, List.append_nil, h] at hrun hbuf
  exact ⟨t, hrun, hbuf⟩

/-- Settles O37: both runs are one DRAIN of `BUF` and the whole stream. -/
theorem packetsDoNotDependOnChunking : Obligations.PacketsDoNotDependOnChunking := by
  intro ops s hops
  obtain ⟨t, hrun, hbuf⟩ := runOps_feeds_drains hops s
  obtain ⟨t', hrun', hbuf'⟩ := runOps_feed_drain (s := s) (stream := fedBytes ops) rfl
  exact ⟨t, t', _, hrun, hrun', hbuf'.trans hbuf.symm⟩

/-- A frame made by ENCODE in front of a buffer gives its packet, and DRAIN goes on behind it. -/
theorem drainBuf_frameOfPacket_append {p : Packet} (hp : p.wf = true) (rest : Bytes) :
    drainBuf (frameOfPacket p ++ rest) = (p :: (drainBuf rest).1, (drainBuf rest).2) := by
  obtain ⟨hdata, hopt⟩ := (Packet.wf_iff p).1 hp
  rw [frameOfPacket, drainBuf_of_complete (decode1_frameOf_append hdata hopt p.packetType rest), List.drop_left]

/-- Frames with noise between them give their packets in order, and DRAIN goes on behind them. -/
theorem drainBuf_streamOf_append {items : List (Bytes × Packet)} (h : ∀ it ∈ items, Noise it.1 ∧ it.2.wf = true)
    (rest : Bytes) :
    drainBuf (streamOf items ++ rest) = (items.map Prod.snd ++ (drainBuf rest).1, (drainBuf rest).2) := by
  induction items with
  | nil => rfl
  | cons item items ih =>
    obtain ⟨gap, p⟩ := item
    obtain ⟨⟨hgap, hp⟩, hitems⟩ := List.forall_mem_cons.1 h
    rw [streamOf_cons, List.append_assoc, List.append_assoc, drainBuf_append_of_not_mem _ hgap,
      drainBuf_frameOfPacket_append hp, ih hitems, List.map_cons, List.cons_append]

/-- Settles O38: the whole stream drains to its packets, and the chunks do not matter. -/
theorem cleanStreamDeliversEveryPacket : Obligations.CleanStreamDeliversEveryPacket := by
  intro items tail ops s hbuf hitems htail hops hfed
  obtain ⟨t, hrun, ht⟩ := runOps_feeds_drains hops s
  have hdrain : drainBuf (s.buf ++ fedBytes ops) = (items.map Prod.snd, []) := by
    rw [hfed, drainBuf_append_of_not_mem _ hbuf, drainBuf_streamOf_append hitems, drainBuf_of_noise htail,
      List.append_nil]
  rw [hdrain] at hrun ht
  exact ⟨t, hrun, ht⟩

/-- A frame with another header checksum is its sync byte and bytes with which the decode step answers `Invalid`,
whatever follows. -/
theorem frameOf_set_headerChecksum {pt : Byte} {data opt : Bytes} {hc : Byte}
    (hne : (frameOf pt data opt)[5]? ≠ some hc) :
    ∃ rest, (frameOf pt data opt).set 5 hc = Config.sync :: rest ∧
      ∀ after, decode1 (Config.sync :: (rest ++ after)) = .ok .invalid := by
  rw [frameOf_eq_cons] at hne ⊢
  exact ⟨_, rfl, fun after => decode1_badHeader (fun hcrc => hne (congrArg some hcrc)) _⟩

/-- Settles O39: the changed frame loses its sync byte as `Invalid`, and the rest of it is noise. -/
theorem corruptedHeaderCostsOneFrame : Obligations.CorruptedHeaderCostsOneFrame := by
  intro p bad q hc s hbuf hp _ hq hne hnoise
  obtain ⟨rest, hset, hinvalid⟩ := frameOf_set_headerChecksum hne
  rw [frameOfPacket, hset, List.drop_one, List.tail_cons] at hnoise
  apply runOps_feed_drain
  calc drainBuf (s.buf ++ (frameOfPacket p ++ (frameOfPacket bad).set 5 hc ++ frameOfPacket q))
    _ = drainBuf (frameOfPacket p ++ (Config.sync :: (rest ++ (frameOfPacket q ++ [])))) := by
      rw [drainBuf_append_of_not_mem _ hbuf, frameOfPacket, frameOfPacket, hset]
      simp
    _ = (p :: (drainBuf (frameOfPacket q ++ [])).1, (drainBuf (frameOfPacket q ++ [])).2) := by
      rw [drainBuf_frameOfPacket_append hp, drainBuf_of_invalid (hinvalid _), drainBuf_append_of_not_mem _ hnoise]
    _ = ([p, q], []) := by rw [drainBuf_frameOfPacket_append hq, drainBuf_nil]

end Sys2Proof.Machine
end

section
/-! SUPPORT. The derived fields of an ERP1 packet (spec/44_packet_fields.md R150 to R154): which bytes of `data` they
are, and that the text and the number of a sender id tell its bytes. -/

namespace Sys2Proof.Machine

theorem exec_rorg (p : Packet) (s : State) : exec (.rorg p) s = .next (s.answer (.field (rorgOf p))) := rfl

theorem exec_senderid (p : Packet) (s : State) :
    exec (.senderid p) s = .next (s.answer (.senderId (senderIdOf p))) := rfl

theorem exec_status (p : Packet) (s : State) : exec (.status p) s = .next (s.answer (.field (statusOf p))) := rfl

theorem rorgOf_of_data_eq_cons {p : Packet} {b : Byte} {rest : Bytes} (hpt : p.packetType = 0x01#8)
    (hdata : p.data = b :: rest) : rorgOf p = some b := by
  rw [rorgOf, hdata]
  exact if_pos hpt

theorem rorgOf_eq_none {p : Packet} (h : p.packetType ≠ 0x01#8 ∨ p.data = []) : rorgOf p = none := by
  rcases h with hpt | hdata
  · exact (fields_of_other_type hpt).1
  · simp [rorgOf, hdata]

theorem statusOf_of_data_eq_concat {p : Packet} {pre : Bytes} {b : Byte} (hpt : p.packetType = 0x01#8)
    (hdata : p.data = pre ++ [b]) : statusOf p = some b := by
  rw [statusOf, hdata, List.getLast?_concat]
  exact if_pos hpt

theorem statusOf_eq_none {p : Packet} (h : p.packetType ≠ 0x01#8 ∨ p.data = []) : statusOf p = none := by
  rcases h with hpt | hdata
  · exact (fields_of_other_type hpt).2.2
  · simp [statusOf, hdata]

/-- A slice of the bytes between two others. -/
theorem slice_append_append (pre mid post : Bytes) :
    slice (pre ++ (mid ++ post)) pre.length (pre.length + mid.length) = mid := by
  rw [slice_add, List.drop_left, List.take_left]

theorem senderIdOf_of_data_eq {p : Packet} {pre : Bytes} {b0 b1 b2 b3 st : Byte} (hpt : p.packetType = 0x01#8)
    (hpre : pre ≠ []) (hdata : p.data = pre ++ [b0, b1, b2, b3, st]) : senderIdOf p = some [b0, b1, b2, b3] := by
  have hpos := List.length_pos_iff.2 hpre
  have hlen : p.data.length = pre.length + 5 := by rw [hdata, List.length_append]; rfl
  have hslice := slice_append_append pre [b0, b1, b2, b3] [st]
  rw [senderIdOf, if_pos ⟨hpt, by omega⟩, hlen, hdata]
  exact congrArg some hslice

theorem senderIdOf_eq_none {p : Packet} (h : p.packetType ≠ 0x01#8 ∨ p.data.length < 6) : senderIdOf p = none := by
  rcases h with hpt | hlen
  · exact (fields_of_other_type hpt).2.1
  · exact if_neg fun hp => Nat.not_le.2 hlen hp.2

/-- Settles O43: `rorgOf` on an ERP1 packet with a first data byte, and without one. -/
theorem rorgIsTheFirstErp1Byte : Obligations.RorgIsTheFirstErp1Byte := by
  intro p s
  rw [exec_rorg]
  exact ⟨fun b rest hpt hdata => by rw [rorgOf_of_data_eq_cons hpt hdata], fun h => by rw [rorgOf_eq_none h]⟩

/-- Settles O44: `senderIdOf` on an ERP1 packet of six data bytes or more, and on any other packet. -/
theorem senderIdIsTheFourBytesBeforeTheStatus : Obligations.SenderIdIsTheFourBytesBeforeTheStatus := by
  intro p s
  rw [exec_senderid]
  exact ⟨fun pre b0 b1 b2 b3 st hpt hpre hdata => by rw [senderIdOf_of_data_eq hpt hpre hdata],
    fun h => by rw [senderIdOf_eq_none h]⟩

/-- Settles O45: `statusOf` on an ERP1 packet with a last data byte, and without one. -/
theorem statusIsTheLastErp1Byte : Obligations.StatusIsTheLastErp1Byte := by
  intro p s
  rw [exec_status]
  exact ⟨fun pre b hpt hdata => by rw [statusOf_of_data_eq_concat hpt hdata], fun h => by rw [statusOf_eq_none h]⟩

/-- Settles O46: the example's `data` begins with F6 and ends with its last five bytes behind at least that one. -/
theorem erp1ExampleHoldsForEveryPayload : Obligations.Erp1ExampleHoldsForEveryPayload := by
  intro payload opt s p hp
  have hpt : p.packetType = 0x01#8 := by rw [hp]
  have hfirst : p.data = 0xF6#8 :: (payload ++ [0x01#8, 0x02#8, 0x03#8, 0x04#8, 0x30#8]) := by rw [hp]
  have hlast : p.data = (0xF6#8 :: (payload ++ [0x01#8, 0x02#8, 0x03#8, 0x04#8])) ++ [0x30#8] := by simp [hfirst]
  have hsender : senderIdOf p = some [0x01#8, 0x02#8, 0x03#8, 0x04#8] :=
    senderIdOf_of_data_eq (pre := 0xF6#8 :: payload) hpt nofun hfirst
  refine ⟨?_, ?_, ?_, ?_⟩
  · rw [exec_rorg, rorgOf_of_data_eq_cons hpt hfirst]
  · rw [exec_senderid, hsender]
  · rw [senderIdText, hsender]
    decide +kernel
  · rw [exec_status, statusOf_of_data_eq_concat hpt hlast]

@[simp] theorem hex_nil : hex [] = [] := rfl

@[simp] theorem hex_cons (b : Byte) (s : Bytes) : hex (b :: s) = hex2 b ++ hex s := rfl

/-- Beyond its sixteen digits `hexDigit` answers `0`, so the bound on the number is not needed. -/
theorem hexDigit_mem (n : Nat) :
    hexDigit n ∈ ['0', '1', '2', '3', '4', '5', '6', '7', '8', '9', 'A', 'B', 'C', 'D', 'E', 'F'] := by
  rw [hexDigit, List.getD_eq_getElem?_getD]
  cases h : (['0', '1', '2', '3', '4', '5', '6', '7', '8', '9', 'A', 'B', 'C', 'D', 'E', 'F'])[n]? with
  | none => exact List.mem_cons_self
  | some ch => exact List.mem_of_getElem? h

/-- Numbers below 16 have different digits. -/
theorem hexDigit_injOn : ∀ m < 16, ∀ n < 16, hexDigit m = hexDigit n → m = n := by decide +kernel

/-- Every character of a rendering is an upper-case hexadecimal digit (00_scope section 6.2). -/
theorem mem_hex {s : Bytes} {ch : Char} (h : ch ∈ hex s) : ∃ n, ch = hexDigit n := by
  obtain ⟨b, -, hb⟩ := List.mem_flatMap.1 h
  rcases List.mem_pair.1 hb with hch | hch
  · exact ⟨_, hch⟩
  · exact ⟨_, hch⟩

/-- The two digits of a byte tell it. -/
theorem hex2_injective : Function.Injective hex2 := by
  intro a b h
  obtain ⟨hhigh, hlow⟩ : hexDigit (a.toNat / 16) = hexDigit (b.toNat / 16) ∧
      hexDigit (a.toNat % 16) = hexDigit (b.toNat % 16) := by simpa [hex2] using h
  have ha := a.isLt
  have hb := b.isLt
  have hdiv := hexDigit_injOn _ (by omega) _ (by omega) hhigh
  have hmod := hexDigit_injOn _ (by omega) _ (by omega) hlow
  exact BitVec.eq_of_toNat_eq (by omega)

/-- The text tells the bytes: two characters each. -/
theorem hex_injective : Function.Injective hex := by
  intro s t h
  induction s generalizing t with
  | nil =>
    cases t with
    | nil => rfl
    | cons b t => cases h
  | cons a s ih =>
    cases t with
    | nil => cases h
    | cons b t =>
      obtain ⟨hhead, htail⟩ := List.append_inj h rfl
      rw [hex2_injective hhead, ih htail]

/-- Reading on from two numbers through equally many bytes to one end, the numbers and the bytes were the same. -/
theorem foldl_bigEndian_inj {s t : Bytes} (hlen : s.length = t.length) {m n : Nat}
    (h : s.foldl (fun acc b => acc * 256 + b.toNat) m = t.foldl (fun acc b => acc * 256 + b.toNat) n) :
    m = n ∧ s = t := by
  induction s generalizing t m n with
  | nil =>
    obtain rfl := List.length_eq_zero_iff.1 hlen.symm
    exact ⟨h, rfl⟩
  | cons a s ih =>
    cases t with
    | nil => cases hlen
    | cons b t =>
      obtain ⟨hacc, rfl⟩ := ih (Nat.succ.inj hlen) h
      have ha := a.isLt
      have hb := b.isLt
      dsimp only at hacc
      obtain rfl : a = b := BitVec.eq_of_toNat_eq (by omega)
      exact ⟨by omega, rfl⟩

/-- The number tells the bytes, when it is known how many they are (20_memory R45). -/
theorem bigEndian_inj {s t : Bytes} (hlen : s.length = t.length) (h : bigEndian s = bigEndian t) : s = t :=
  (foldl_bigEndian_inj hlen h).2

theorem bigEndian_four (b0 b1 b2 b3 : Byte) :
    bigEndian [b0, b1, b2, b3] = b0.toNat * 2 ^ 24 + b1.toNat * 2 ^ 16 + b2.toNat * 2 ^ 8 + b3.toNat := by
  simp only [bigEndian, List.foldl_cons, List.foldl_nil]
  omega

/-- Settles O47: a sender id has four bytes, and `hex` and, on four bytes, `bigEndian` are injective. -/
theorem senderIdRenderingsCarryTheSameInformation : Obligations.SenderIdRenderingsCarryTheSameInformation := by
  intro p q bs bs' hp hq
  have hlen := senderIdOf_length hp
  simp only [senderIdText, senderIdNumber, hp, hq, Option.map_some, Option.some.injEq]
  refine ⟨⟨hex bs, rfl, ?_, fun ch hch => ?_⟩, ?_, fun h => hex_injective h,
    bigEndian_inj (hlen.trans (senderIdOf_length hq).symm)⟩
  · rw [hex_length, hlen]
  · obtain ⟨n, rfl⟩ := mem_hex hch
    exact hexDigit_mem n
  · obtain ⟨b0, b1, b2, b3, rfl⟩ := List.length_eq_four.1 hlen
    exact ⟨b0, b1, b2, b3, rfl, bigEndian_four b0 b1 b2 b3⟩

end Sys2Proof.Machine
end

section
/-! SUPPORT. What has no next state (spec/60_exceptions.md R160, R170): DECODE1 without a sync byte, FEED beyond a finite
capacity, and a step whose first request is one of these or names no operation. -/

namespace Sys2Proof.Machine

/-- DECODE1 on an operand that begins with another byte than the sync byte (42_frame_decode R112). -/
def LacksSync (i : Instr) : Prop := ∃ (b0 : Byte) (rest : Bytes), i = .decode1 (b0 :: rest) ∧ b0 ≠ 0x55#8

/-- FEED of a chunk that a finite capacity does not hold behind `buf` (43_stream_parser R143). -/
def Overfills (params : Config) (buf : Bytes) (i : Instr) : Prop :=
  ∃ (chunk : Bytes) (cap : Nat), i = .feed chunk ∧ params.bufCap = some cap ∧ cap < buf.length + chunk.length

theorem exec_of_lacksSync {i : Instr} (h : LacksSync i) (s : State) : exec i s = .refused .noSync := by
  obtain ⟨b0, rest, rfl, hne⟩ := h
  exact exec_decode1_of_error (decode1_of_ne_sync rest hne) s

theorem execWith_of_overfills {params : Config} {i : Instr} {s : State} (h : Overfills params s.buf i) :
    execWith params i s = .refused .bufferOverflow := by
  obtain ⟨chunk, cap, rfl, hcap, hlt⟩ := h
  exact execWith_feed_of_not_fits ((fits_eq_false_iff _ _ _).2 ⟨cap, hcap, hlt⟩)

/-- Every operation completes, except DECODE1 without a sync byte in front: ENCODE answers even on over-long operands. -/
theorem exec_completes_or_lacksSync (i : Instr) (s : State) : (∃ t, exec i s = .next t) ∨ LacksSync i := by
  cases i with
  | encode pt data opt =>
    rcases encodeFrame_cases pt data opt with ⟨hdata, hopt, -⟩ | ⟨hover, -⟩
    · exact .inl ⟨_, exec_encode_of_le hdata hopt pt s⟩
    · exact .inl ⟨_, exec_encode_of_overlong hover pt s⟩
  | decode1 bs =>
    cases h : decode1 bs with
    | ok v => exact .inl ⟨_, exec_decode1_of_ok h s⟩
    | error e =>
      obtain ⟨-, b0, rest, rfl, hne⟩ := decode1_error h
      exact .inr ⟨b0, rest, rfl, hne⟩
  | crc8 | feed | drain | reset | rorg | senderid | status | esp3FramePrefix => exact .inl ⟨_, rfl⟩

theorem exec_stops_iff (i : Instr) (s : State) : (¬ ∃ t, exec i s = .next t) ↔ LacksSync i := by
  refine ⟨(exec_completes_or_lacksSync i s).resolve_left, ?_⟩
  rintro hsync ⟨t, ht⟩
  cases (exec_of_lacksSync hsync s).symm.trans ht

theorem execWith_stops_iff (params : Config) (i : Instr) (s : State) :
    (¬ ∃ t, execWith params i s = .next t) ↔ LacksSync i ∨ Overfills params s.buf i := by
  constructor
  · intro hstop
    rcases execWith_cases params i s with heq | ⟨chunk, cap, hi, hcap, hlt, -⟩
    · rw [heq, exec_stops_iff] at hstop
      exact .inl hstop
    · exact .inr ⟨chunk, cap, hi, hcap, hlt⟩
  · rintro (hsync | hover) ⟨t, ht⟩
    · exact (exec_stops_iff i s).2 hsync ⟨t, exec_next_of_execWith_next ht⟩
    · cases (execWith_of_overfills hover).symm.trans ht

/-- Settles O51: every other operation has an equation that gives its next state. -/
theorem operationsStopOnlyAsListed : Obligations.OperationsStopOnlyAsListed := fun i s =>
  ⟨exec_stops_iff i s, fun params => execWith_stops_iff params i s⟩

/-- A step stops exactly when the first request names no operation or one that stops, whatever performs it. -/
theorem stepBy_stops_iff (perform : Instr → State → Host.Outcome State Fault Refusal) (s : State) :
    (¬ ∃ t, stepBy perform s = .next t) ↔ ∃ request rest, s.requests = request :: rest ∧
      ((∃ e, decode request = .error e) ∨
        ∃ i, decode request = .ok i ∧ ¬ ∃ t, perform i { s with requests := rest } = .next t) := by
  rcases stepBy_cases perform s with ⟨hreq, hstep⟩ | ⟨q, rest, i, hreq, hdec, hstep⟩ | ⟨q, rest, e, hreq, hdec, hstep⟩
  · simp [hreq, hstep]
  · simp [hreq, hdec, hstep]
  · simp [hreq, hdec, hstep, rejectRequest_ne_next]

/-- A request for a DECODE1 without a sync byte, written out. -/
theorem exists_decoded_lacksSync_iff (request : Bytes) :
    (∃ i, decode request = .ok i ∧ LacksSync i) ↔
      ∃ (b0 : Byte) (bs : Bytes), decode request = .ok (.decode1 (b0 :: bs)) ∧ b0 ≠ 0x55#8 := by
  constructor
  · rintro ⟨_, hdec, b0, bs, rfl, hne⟩
    exact ⟨b0, bs, hdec, hne⟩
  · rintro ⟨b0, bs, hdec, hne⟩
    exact ⟨_, hdec, b0, bs, rfl, hne⟩

/-- A request for a FEED beyond the capacity, written out. -/
theorem exists_decoded_overfills_iff (params : Config) (buf request : Bytes) :
    (∃ i, decode request = .ok i ∧ Overfills params buf i) ↔
      ∃ (chunk : Bytes) (cap : Nat), decode request = .ok (.feed chunk) ∧ params.bufCap = some cap ∧
        cap < buf.length + chunk.length := by
  constructor
  · rintro ⟨_, hdec, chunk, cap, rfl, hover⟩
    exact ⟨chunk, cap, hdec, hover⟩
  · rintro ⟨chunk, cap, hdec, hover⟩
    exact ⟨_, hdec, chunk, cap, rfl, hover⟩

/-- Settles O52: a step stops with the operation its first request names, and O51's lists say which operations stop. -/
theorem stepsStopOnlyAsListed : Obligations.StepsStopOnlyAsListed := by
  intro s
  constructor
  · rw [Safe, step, stepBy_stops_iff]
    simp only [exec_stops_iff, exists_decoded_lacksSync_iff]
  · intro params
    rw [stepWith, stepBy_stops_iff]
    simp only [execWith_stops_iff, and_or_left, exists_or, exists_decoded_lacksSync_iff, exists_decoded_overfills_iff]

end Sys2Proof.Machine
end

section
/-! SUPPORT. The host that scans with DECODE1 by itself (spec/70_reset_and_hazards.md R195), and the header that waits
for its bytes (R193). -/

namespace Sys2Proof.Machine

/-- The passes of DRAIN are steps of the host's scan, so the scan reaches what DRAIN makes of a buffer. -/
theorem hostScan_drainBuf (b : Bytes) : HostScan b (drainBuf b).1 (drainBuf b).2 :=
  drainBuf_induction (P := fun b r => HostScan b r.1 r.2)
    (noise := .noise)
    (discard := fun pre rest r hpre hne ih => .discard pre rest r.1 r.2 hpre hne ih)
    (invalid := fun rest r hinv ih => .invalid rest r.1 r.2 hinv ih)
    (incomplete := .incomplete)
    (complete := fun rest p n r hcomp ih => .complete rest p n r.1 r.2 hcomp ih) b

/-- Each step of the host's scan is a pass of DRAIN, so the scan reaches nothing else. -/
theorem drainBuf_eq_of_hostScan {b kept : Bytes} {ps : List Packet} (h : HostScan b ps kept) :
    drainBuf b = (ps, kept) := by
  induction h with
  | noise b hb => exact drainBuf_of_noise hb
  | discard pre rest ps kept hpre _ _ ih => exact (drainBuf_append_of_not_mem _ hpre).trans ih
  | invalid rest ps kept hinv _ ih => exact (drainBuf_of_invalid hinv).trans ih
  | incomplete rest hinc => exact drainBuf_of_incomplete hinc
  | complete rest p n ps kept hcomp _ ih => rw [drainBuf_of_complete hcomp, ih]

theorem hostScan_iff_drainBuf_eq (b kept : Bytes) (ps : List Packet) :
    HostScan b ps kept ↔ drainBuf b = (ps, kept) := by
  constructor
  · exact drainBuf_eq_of_hostScan
  · intro h
    have hscan := hostScan_drainBuf b
    rwa [h] at hscan

/-- DRAIN's next state tells what was extracted and what is left. -/
theorem exec_drain_eq_next_iff (s : State) (ps : List Packet) (kept : Bytes) :
    exec .drain s = .next { s with buf := kept, result := some (.packets ps) } ↔ drainBuf s.buf = (ps, kept) := by
  constructor
  · intro h
    have hnext := Host.Outcome.next.inj ((exec_drain s).symm.trans h)
    have hbuf : (drainBuf s.buf).2 = kept := congrArg (fun t : State => t.buf) hnext
    have hres : some (Result.packets (drainBuf s.buf).1) = some (.packets ps) :=
      congrArg (fun t : State => t.result) hnext
    exact Prod.ext (Result.packets.inj (Option.some.inj hres)) hbuf
  · exact exec_drain_of_eq

/-- Settles O36: the scan and DRAIN are each the graph of `drainBuf`. -/
theorem drainIsTheHostsScanWithDecode1 : Obligations.DrainIsTheHostsScanWithDecode1 := fun s ps kept =>
  (hostScan_iff_drainBuf_eq s.buf kept ps).trans (exec_drain_eq_next_iff s ps kept).symm

/-- Settles O40: a good header that announces more bytes than there are is `Incomplete`, whatever stands behind it. -/
theorem falseHeaderHoldsBackWholeFrames : Obligations.FalseHeaderHoldsBackWholeFrames := by
  intro lh ll ol pt pre post q s _ hbuf hlen
  have hinc : decode1 s.buf = .ok .incomplete := by
    rw [hbuf]
    refine decode1_unfinished rfl ?_
    have hframe := frameLength_eq lh ll ol
    simp only [List.length_append]
    omega
  exact drainStopsOnIncomplete s _ hbuf (exec_decode1_of_ok hinc s)

end Sys2Proof.Machine
end

section
/-! SUPPORT. The encoding (spec/30_encoding.md section 4): each operand format reads what its writer writes and nothing
else, so decoding inverts encoding on the well-formed operations; exactly the unused select codes are `illegalOp`
(R75), and the numbers of the opcode table are requests among these. -/

namespace Sys2Proof

/-! ## The operand formats (30_encoding R73) -/

theorem takeSeq_eq_some_iff (bs s rest : Bytes) : takeSeq bs = some (s, rest) ↔ putSeq s ++ rest = bs := by
  constructor
  · exact fun h => (takeSeq_eq_some h).symm
  · rintro rfl
    exact takeSeq_putSeq_append s rest

theorem takeWholeSeq_eq_some_iff (bs s : Bytes) : takeWholeSeq bs = some s ↔ putSeq s = bs := by
  rw [← List.append_nil (putSeq s), ← takeSeq_eq_some_iff, takeWholeSeq]
  split
  · rename_i hseq
    simp [hseq]
  · rename_i hseq
    simpa using hseq s

theorem takeTriplet_putSeq_append (pt : Byte) (data opt : Bytes) :
    takeTriplet (pt :: (putSeq data ++ putSeq opt)) = some (pt, data, opt) := by
  have hopt : takeSeq (putSeq opt) = some (opt, []) := (takeSeq_eq_some_iff _ _ _).2 (List.append_nil _)
  simp [takeTriplet, takeSeq_putSeq_append, hopt]

theorem takeTriplet_eq_some {bs data opt : Bytes} {pt : Byte} (h : takeTriplet bs = some (pt, data, opt)) :
    pt :: (putSeq data ++ putSeq opt) = bs := by
  unfold takeTriplet at h
  split at h
  · cases h
  · split at h
    · cases h
    · rename_i hdata
      split at h
      · rename_i hopt
        cases h
        rw [takeSeq_eq_some hdata, takeSeq_eq_some hopt, List.append_nil]
      · cases h

/-- Format `S` reads a written byte sequence and nothing else. -/
theorem decodeS_eq_ok_iff (mk : Bytes → Instr) (operands : Bytes) (i : Instr) :
    decodeS mk operands = .ok i ↔ ∃ s, putSeq s = operands ∧ mk s = i := by
  simp only [← takeWholeSeq_eq_some_iff]
  unfold decodeS
  split <;> simp [*]

/-- Format `TSS` reads a written triplet and nothing else. -/
theorem decodeTSS_eq_ok_iff (mk : Byte → Bytes → Bytes → Instr) (operands : Bytes) (i : Instr) :
    decodeTSS mk operands = .ok i ↔
      ∃ pt data opt, pt :: (putSeq data ++ putSeq opt) = operands ∧ mk pt data opt = i := by
  constructor
  · intro h
    unfold decodeTSS at h
    split at h
    · rename_i htriplet
      exact ⟨_, _, _, takeTriplet_eq_some htriplet, Except.ok.inj h⟩
    · cases h
  · rintro ⟨pt, data, opt, rfl, rfl⟩
    simp [decodeTSS, takeTriplet_putSeq_append]

/-- Format `N` reads no operand and nothing else. -/
theorem decodeN_eq_ok_iff (i j : Instr) (operands : Bytes) : decodeN i operands = .ok j ↔ operands = [] ∧ i = j := by
  cases operands <;> simp [decodeN]

/-- Format `P` reads a written Packet within its ranges and nothing else. -/
theorem decodeP_eq_ok_iff (mk : Packet → Instr) (operands : Bytes) (i : Instr) :
    decodeP mk operands = .ok i ↔ ∃ p, p.wf = true ∧ putPacket p = operands ∧ mk p = i := by
  constructor
  · intro h
    unfold decodeP at h
    split at h
    · rename_i htriplet
      split at h
      · exact ⟨_, ‹_›, takeTriplet_eq_some htriplet, Except.ok.inj h⟩
      · cases h
    · cases h
  · rintro ⟨p, hp, rfl, rfl⟩
    simp [decodeP, putPacket, takeTriplet_putSeq_append, hp]

/-- A word is its high part in front of its low part. -/
theorem extractLsb'_append_setWidth (m n : Nat) (x : BitVec (m + n)) : x.extractLsb' n m ++ x.setWidth n = x := by
  rw [BitVec.setWidth_eq_extractLsb' (by omega), BitVec.extractLsb'_append_extractLsb'_eq_extractLsb' (by omega),
    BitVec.extractLsb'_eq_self]

/-- The prefix row after its sync byte is five bytes, the data length's high byte first (30_encoding R60). -/
theorem decodeFramePrefix_eq_ok_iff (operands : Bytes) (i : Instr) :
    decodeFramePrefix operands = .ok i ↔
      ∃ dl ol pt hc, [dl.extractLsb' 8 8, dl.setWidth 8, ol, pt, hc] = operands ∧ .esp3FramePrefix dl ol pt hc = i := by
  constructor
  · intro h
    unfold decodeFramePrefix at h
    split at h
    · rename_i lh ll ol pt hc
      exact ⟨lh ++ ll, ol, pt, hc, by rw [BitVec.extractLsb'_append_eq_left, BitVec.setWidth_append_eq_right],
        Except.ok.inj h⟩
    · cases h
  · rintro ⟨dl, ol, pt, hc, rfl, rfl⟩
    rw [decodeFramePrefix, extractLsb'_append_setWidth 8 8]

/-- A selected operation's operands are read exactly where its encoding wrote them. -/
theorem encode_of_decodeOperands {op : Op} {operands : Bytes} {i : Instr} (h : decodeOperands op operands = .ok i) :
    i.wellFormed = true ∧ encode i = op.selectByte :: operands := by
  cases op with
  | crc8 | decode1 | feed =>
    obtain ⟨s, rfl, rfl⟩ := (decodeS_eq_ok_iff _ _ _).1 h
    exact ⟨rfl, rfl⟩
  | encode =>
    obtain ⟨pt, data, opt, rfl, rfl⟩ := (decodeTSS_eq_ok_iff _ _ _).1 h
    exact ⟨rfl, rfl⟩
  | drain | reset =>
    obtain ⟨rfl, rfl⟩ := (decodeN_eq_ok_iff _ _ _).1 h
    exact ⟨rfl, rfl⟩
  | rorg | senderid | status =>
    obtain ⟨p, hp, rfl, rfl⟩ := (decodeP_eq_ok_iff _ _ _).1 h
    exact ⟨hp, rfl⟩

/-! ## The select byte (30_encoding R74, R75) -/

/-- A select byte is not the sync byte, and its code is in its low half with zeros above. -/
theorem selectByte_of_code (code : BitVec 4) :
    code.setWidth 8 ≠ Config.sync ∧ (code.setWidth 8 : Byte).extractLsb' 4 4 = 0x0#4 ∧
      (code.setWidth 8 : Byte).setWidth 4 = code := by
  revert code
  decide

theorem setWidth_setWidth_of_high_eq_zero {sel : Byte} (h : sel.extractLsb' 4 4 = 0x0#4) :
    (sel.setWidth 4).setWidth 8 = sel := by
  calc (sel.setWidth 4).setWidth 8
    _ = 0x0#4 ++ sel.setWidth 4 := BitVec.setWidth_eq_append (by decide)
    _ = sel := by rw [← h, extractLsb'_append_setWidth 4 4]

theorem decode_of_opOfCode_eq_some {code : BitVec 4} {op : Op} (h : opOfCode code = some op) (operands : Bytes) :
    decode (code.setWidth 8 :: operands) = decodeOperands op operands := by
  obtain ⟨hsync, hhigh, hlow⟩ := selectByte_of_code code
  rw [decode, if_neg hsync, if_pos hhigh, hlow, h]

theorem decode_of_opOfCode_eq_none {code : BitVec 4} (h : opOfCode code = none) (operands : Bytes) :
    decode (code.setWidth 8 :: operands) = .error .illegalOp := by
  obtain ⟨hsync, hhigh, hlow⟩ := selectByte_of_code code
  rw [decode, if_neg hsync, if_pos hhigh, hlow, h]

theorem decode_selectByte (op : Op) (operands : Bytes) :
    decode (op.selectByte :: operands) = decodeOperands op operands :=
  decode_of_opOfCode_eq_some (opOfCode_code op) operands

/-- A request that decodes is the prefix row, or the select byte of an operation and its operands. -/
theorem decode_eq_ok {request : Bytes} {i : Instr} (h : decode request = .ok i) :
    (∃ operands, request = Config.sync :: operands ∧ decodeFramePrefix operands = .ok i) ∨
      ∃ op operands, request = op.selectByte :: operands ∧ decodeOperands op operands = .ok i := by
  unfold decode at h
  split at h
  · cases h
  · rename_i sel operands
    split at h
    · rename_i hsync
      exact .inl ⟨operands, by rw [hsync], h⟩
    · split at h
      · rename_i hhigh
        split at h
        · rename_i op hop
          refine .inr ⟨op, operands, ?_, h⟩
          rw [Op.selectByte, ← opOfCode_eq_some hop, setWidth_setWidth_of_high_eq_zero hhigh]
        · cases h
      · cases h

/-- Settles O2: each operand format reads back what `encode` writes behind the select byte. -/
theorem decodeOfEncodeIsTheOperation : Obligations.DecodeOfEncodeIsTheOperation := by
  intro i hi
  cases i with
  | crc8 bs | decode1 bs | feed bs => exact (decode_selectByte _ _).trans ((decodeS_eq_ok_iff _ _ _).2 ⟨bs, rfl, rfl⟩)
  | encode pt data opt =>
    exact (decode_selectByte _ _).trans ((decodeTSS_eq_ok_iff _ _ _).2 ⟨pt, data, opt, rfl, rfl⟩)
  | drain | reset => exact (decode_selectByte _ _).trans ((decodeN_eq_ok_iff _ _ _).2 ⟨rfl, rfl⟩)
  | rorg p | senderid p | status p =>
    exact (decode_selectByte _ _).trans ((decodeP_eq_ok_iff _ _ _).2 ⟨p, hi, rfl, rfl⟩)
  | esp3FramePrefix dl ol pt hc => exact (decodeFramePrefix_eq_ok_iff _ _).2 ⟨dl, ol, pt, hc, rfl, rfl⟩

/-- Settles O3: a decodable request is the prefix row or a select byte with operands, and each format reads only what
`encode` writes. -/
theorem onlyEncodingsDecode : Obligations.OnlyEncodingsDecode := by
  intro request i h
  rcases decode_eq_ok h with ⟨operands, rfl, hprefix⟩ | ⟨op, operands, rfl, hop⟩
  · obtain ⟨dl, ol, pt, hc, rfl, rfl⟩ := (decodeFramePrefix_eq_ok_iff _ _).1 hprefix
    exact ⟨rfl, rfl⟩
  · exact encode_of_decodeOperands hop

theorem opOfCode_eq_none_iff (code : BitVec 4) :
    opOfCode code = none ↔ code ∈ [0x0#4, 0x7#4, 0xB#4, 0xC#4, 0xD#4, 0xE#4, 0xF#4] := by
  revert code
  decide

theorem decodeS_ne_illegalOp (mk : Bytes → Instr) (operands : Bytes) : decodeS mk operands ≠ .error .illegalOp := by
  unfold decodeS
  split <;> simp

theorem decodeTSS_ne_illegalOp (mk : Byte → Bytes → Bytes → Instr) (operands : Bytes) :
    decodeTSS mk operands ≠ .error .illegalOp := by
  unfold decodeTSS
  split <;> simp

theorem decodeN_ne_illegalOp (i : Instr) (operands : Bytes) : decodeN i operands ≠ .error .illegalOp := by
  cases operands <;> simp [decodeN]

theorem decodeP_ne_illegalOp (mk : Packet → Instr) (operands : Bytes) : decodeP mk operands ≠ .error .illegalOp := by
  unfold decodeP
  split
  · split <;> simp
  · simp

/-- The operands of a selected operation may be malformed or no Packet, but its code is a used one. -/
theorem decodeOperands_ne_illegalOp (op : Op) (operands : Bytes) : decodeOperands op operands ≠ .error .illegalOp := by
  cases op with
  | crc8 | decode1 | feed => exact decodeS_ne_illegalOp _ operands
  | encode => exact decodeTSS_ne_illegalOp _ operands
  | drain | reset => exact decodeN_ne_illegalOp _ operands
  | rorg | senderid | status => exact decodeP_ne_illegalOp _ operands

theorem decode_eq_illegalOp_iff (code : BitVec 4) (operands : Bytes) :
    decode (code.setWidth 8 :: operands) = .error .illegalOp ↔ opOfCode code = none := by
  cases h : opOfCode code with
  | none => simp [decode_of_opOfCode_eq_none h]
  | some op => simp [decode_of_opOfCode_eq_some h, decodeOperands_ne_illegalOp]

/-- A table number whose request is an operation's encoding is read as that operation (log 5). -/
theorem decodeTableWord_eq_some {nbits w : Nat} {i : Instr} (hi : i.wellFormed = true)
    (h : tableRequest nbits w = encode i) : decodeTableWord nbits w = some i := by
  rw [decodeTableWord, h, decodeOfEncodeIsTheOperation i hi]

/-- A table number whose request is the select byte of an unused code is read as nothing. -/
theorem decodeTableWord_eq_none {nbits w : Nat} {code : BitVec 4} (hcode : opOfCode code = none)
    (h : tableRequest nbits w = [code.setWidth 8]) : decodeTableWord nbits w = none := by
  rw [decodeTableWord, h, decode_of_opOfCode_eq_none hcode]

/-- Settles O1: each number's request is the encoding of its row with zeros for operands, or an unused select byte. -/
theorem tableNumbersDecodeToTheirRows : Obligations.TableNumbersDecodeToTheirRows := by
  refine ⟨?_, ?_, ?_, ?_, ?_, ?_, ?_, ?_, ?_, ?_, decodeTableWord_eq_none (code := 0x0#4) rfl rfl,
    decodeTableWord_eq_none (code := 0x7#4) rfl rfl, decodeTableWord_eq_none (code := 0xF#4) rfl rfl⟩
  -- The nine select codes and the number of the prefix row.
  all_goals exact decodeTableWord_eq_some rfl rfl

end Sys2Proof
end

section
/-! SUPPORT. A step and the pending requests (spec/20_memory.md R50, R55): it performs or rejects the first of them, and
a run performs the issued operations in order, since no operation depends on what else has been issued. -/

namespace Sys2Proof.Machine

theorem stepBy_of_decode_eq_ok (perform : Instr → State → Host.Outcome State Fault Refusal) {s : State}
    {request : Bytes} {rest : List Bytes} {i : Instr} (hreq : s.requests = request :: rest)
    (hdec : decode request = .ok i) : stepBy perform s = perform i { s with requests := rest } := by
  simp [stepBy, fetch, hreq, hdec]

theorem stepBy_of_decode_eq_error (perform : Instr → State → Host.Outcome State Fault Refusal) {s : State}
    {request : Bytes} {rest : List Bytes} {e : DecodeError} (hreq : s.requests = request :: rest)
    (hdec : decode request = .error e) : stepBy perform s = rejectRequest e s := by
  simp [stepBy, fetch, hreq, hdec]

theorem stepBy_of_requests_eq_nil (perform : Instr → State → Host.Outcome State Fault Refusal) {s : State}
    (hreq : s.requests = []) : stepBy perform s = .next s := by
  simp [stepBy, fetch, hreq]

/-- Settles O4: the operands of a used code are never `illegalOp`, and a step rejects what the decoder rejects. -/
theorem unusedCodesAreRefused : Obligations.UnusedCodesAreRefused := by
  intro code operands
  have hiff := (decode_eq_illegalOp_iff code operands).trans (opOfCode_eq_none_iff code)
  exact ⟨hiff, fun s rest hcode hreq => stepBy_of_decode_eq_error exec hreq (hiff.2 hcode)⟩

/-- Settles O5: a step is what `fetch` finds, performed. -/
theorem stepPerformsTheDecodedOperation : Obligations.StepPerformsTheDecodedOperation := fun _ =>
  ⟨fun _ _ _ => stepBy_of_decode_eq_ok exec, stepBy_of_requests_eq_nil exec⟩

/-- The state in which the host has issued operations ahead of the requests pending so far. -/
def State.issue (s : State) (ops : List Instr) : State := { s with requests := ops.map encode ++ s.requests }

@[simp] theorem State.issue_buf (s : State) (ops : List Instr) : (s.issue ops).buf = s.buf := rfl
@[simp] theorem State.issue_requests (s : State) (ops : List Instr) :
    (s.issue ops).requests = ops.map encode ++ s.requests := rfl

/-- A step takes the operation issued first. -/
theorem stepWith_issue_cons (params : Config) (s : State) {i : Instr} (hi : i.wellFormed = true) (ops : List Instr) :
    stepWith params (s.issue (i :: ops)) = execWith params i (s.issue ops) :=
  stepBy_of_decode_eq_ok _ rfl (decodeOfEncodeIsTheOperation i hi)

/-- An operation that completes does the same whatever else has been issued (log 2). -/
theorem exec_issue {i : Instr} {s t : State} (h : exec i s = .next t) (ops : List Instr) :
    exec i (s.issue ops) = .next (t.issue ops) := by
  have pure (hi : isFeedOrDrain i = false) (hr : i ≠ .reset) : exec i (s.issue ops) = .next (t.issue ops) := by
    rcases exec_pure_cases hi hr with ⟨r, hall⟩ | ⟨x, hall⟩
    · obtain rfl := Host.Outcome.next.inj ((hall s).symm.trans h)
      exact hall (s.issue ops)
    · cases (hall s).symm.trans h
  cases i with
  | feed | drain | reset =>
    obtain rfl := Host.Outcome.next.inj h
    rfl
  | crc8 | encode | decode1 | rorg | senderid | status | esp3FramePrefix => exact pure rfl nofun

/-- With parameters given an operation that completes does the same whatever else has been issued. -/
theorem execWith_issue {params : Config} {i : Instr} {s t : State} (h : execWith params i s = .next t)
    (ops : List Instr) : execWith params i (s.issue ops) = .next (t.issue ops) := by
  rcases execWith_cases params i (s.issue ops) with heq | ⟨chunk, cap, hi, hcap, hlt, -⟩
  · rw [heq, exec_issue (exec_next_of_execWith_next h)]
  · rw [State.issue_buf] at hlt
    have href := execWith_of_overfills (s := s) ⟨chunk, cap, hi, hcap, hlt⟩
    cases href.symm.trans h

theorem run_coreWith_succ_of_step {params : Config} {s t : State} (h : stepWith params s = .next t) (k : Nat) :
    Host.Core.run (coreWith params) (k + 1) s = Host.Core.run (coreWith params) k t := by
  have hstep : (coreWith params).step s = .next t := h
  simp only [Host.Core.run]
  rw [hstep]

/-- The machine runs as the one with the default parameters (log 9). -/
theorem run_coreWith_default (k : Nat) (s : State) :
    Host.Core.run (coreWith Config.default) k s = Host.Core.run core k s := by
  unfold coreWith
  rw [stepWith_default]
  rfl

/-- A run of the machine performs the operations issued ahead of the pending requests. -/
theorem run_coreWith_issue {params : Config} {ops : List Instr} (hops : ∀ i ∈ ops, i.wellFormed = true) {s t : State}
    {ps : List Packet} (h : runOpsWith params ops s = some (t, ps)) :
    Host.Core.run (coreWith params) ops.length (s.issue ops) = .next t := by
  induction ops generalizing s ps with
  | nil =>
    cases h
    rfl
  | cons i ops ih =>
    obtain ⟨hi, hops⟩ := List.forall_mem_cons.1 hops
    cases hexec : execWith params i s with
    | fault f => cases f
    | refused r => simp [runOpsBy, hexec] at h
    | next u =>
      rw [runOpsWith, runOpsBy_cons_of_next hexec, Option.map_eq_some_iff] at h
      obtain ⟨⟨t', ps'⟩, hrun, heq⟩ := h
      obtain rfl : t' = t := congrArg Prod.fst heq
      have hstep : stepWith params (s.issue (i :: ops)) = .next (u.issue ops) :=
        (stepWith_issue_cons params s hi ops).trans (execWith_issue hexec ops)
      exact (run_coreWith_succ_of_step hstep ops.length).trans (ih hops hrun)

/-- Settles O6: by induction on the issued operations, each step performing the first; the machine is the one with the
default parameters. -/
theorem stepsPerformTheIssuedSequence : Obligations.StepsPerformTheIssuedSequence := by
  intro ops s t later ps hops hreq
  have hissue : ({ s with requests := later } : State).issue ops = s := by
    rw [State.issue, ← hreq]
  have hrun (params : Config) (h : runOpsWith params ops { s with requests := later } = some (t, ps)) :
      Host.Core.run (coreWith params) ops.length s = .next t := by
    rw [← hissue]
    exact run_coreWith_issue hops h
  refine ⟨fun h => ?_, hrun⟩
  rw [← run_coreWith_default]
  exact hrun Config.default (by rwa [runOpsWith, execWith_default])

end Sys2Proof.Machine
end
